-- ==== Sys2Proof/Word.lean ====
section
/-! DEFINITION. The word types of the block: `u8`, `u32`, nibbles, and the ASCII codes the decoder tests
(spec/00_scope.md R6, R7, R9). -/

namespace Sys2Proof

/-- `u8`: one input, frame or output element (`BYTE_BITS` = 8, R6). -/
abbrev Byte := BitVec 8

/-- `u32`: every integer the codec handles (`WORD_BITS` = 32, R6). -/
abbrev Word := BitVec 32

/-- A 4-bit half of a byte (R10 "Nibble"). -/
abbrev Nibble := BitVec 4

/-- A 9-bit `rx_event` word: bit 8 is `V`, bits 7:0 are `B` (spec/30_encoding.md R70). -/
abbrev RxWord := BitVec 9

/-- A 4-bit `codec_req` header: bit 3 is `LE`, bits 2:0 are `FSEL` (R70). -/
abbrev CodecHeader := BitVec 4

namespace Ascii

/-- `\t` (R9). -/
abbrev tab : Byte := 0x09#8
/-- `\n` (R9). -/
abbrev lf : Byte := 0x0A#8
/-- `\r` (R9). -/
abbrev cr : Byte := 0x0D#8

end Ascii

end Sys2Proof
end

