-- ==== Sys2Proof/Config.lean ====
section
/-! DEFINITION. The parameters of spec/00_scope.md R6: what is fixed for the machine, and the one parameter the
spec leaves OPEN. -/

namespace Sys2Proof

/-- The two behaviours of `alignUp` near 2^32 that the source allows (spec/40_codec_parse.md R113). -/
inductive AlignUpOverflow where
  | wrap
  | saturate
  deriving DecidableEq, Repr

namespace Config

/-- `HEX_UPPER`: OPEN (R6, spec/92_eei_decisions.md D11). True: LUT entries 10..15 are `A`..`F`; false: `a`..`f`.
It has no body, so whatever is proved about emitted text holds for both cases (notes/assumptions/7.md). -/
opaque hexUpper : Bool

/-- `ALIGN_UP_OVERFLOW` = wrap, the spec's decision D10 (notes/assumptions/8.md). -/
def alignUpOverflow : AlignUpOverflow := .wrap

/-- `FRAME_CAPACITY`: slots 0..11 (R6). -/
abbrev frameCapacity : Nat := 12

/-- `FRAME_MAX_LEN` = `FRAME_CAPACITY − 1` retained bytes (R6). -/
abbrev frameMaxLen : Nat := 11

/-- `PARSE_SCAN_LIMIT` (R6). -/
abbrev parseScanLimit : Nat := 10

/-- `TXQ_MAX`: the longest feedback message (R6, spec/43_dispatch.md R183). -/
abbrev txqMax : Nat := 34

end Config

end Sys2Proof
end

