-- ==== Sys2Proof/Syntax.lean ====
section
/-! DEFINITION. The instructions of the block: one constructor for each of the 26 rows of spec/opcode_table.json,
over the formats `rx_event`, `cmd_byte` and `codec_req` (spec/30_encoding.md R70). A constructor carries its
operands, and the bits of its word that the row ignores (notes/assumptions/11.md), so that no bit is lost. -/

namespace Sys2Proof

/-- One constructor per opcode-table row. `b` is the event's byte `B`, `lower` the ASCII case bit of a letter
(true: the lower-case letter), `le` the `LE` bit of a codec request. -/
inductive Instr where
  -- rx_event (R75)
  | accIdle (b : Byte)
  | accTab
  | accDelimLf
  | accDelimCr
  | accOtherAppend (b : Byte)
  | accOtherDrop (b : Byte)
  -- cmd_byte (R76)
  | setAddr (lower : Bool)
  | setLen (lower : Bool)
  | modeBin (lower : Bool)
  | modeHex (lower : Bool)
  | endianLittle
  | endianBig
  | start (lower : Bool)
  | stats (lower : Bool)
  | nopEmpty
  | nopLf
  | nopCr
  | unknown (c : Byte)
  -- codec_req (R79), with the operands of R74 that the function uses
  | parseHex32 (le : Bool) (inBytes : Vector Byte 10)
  | alignDown (le : Bool) (inValue : Word)
  | alignUp (le : Bool) (inValue : Word)
  | byteToHex (le : Bool) (inByte : Byte)
  | word32ToHex (le : Bool) (inValue : Word)
  | word32ToRaw (le : Bool) (inValue : Word)
  | reservedFsel6 (le : Bool)
  | reservedFsel7 (le : Bool)
  deriving DecidableEq, Repr

end Sys2Proof
end

