-- ==== Sys2Proof/WellFormed.lean ====
section
/-! DEFINITION. Which terms of `Instr` are instructions of the block: the default rows `ACC_OTHER` and `UNKNOWN`
apply only to bytes that no earlier row matches (spec/30_encoding.md R75, R76). -/

namespace Sys2Proof

/-- The 17 byte values with a named `cmd_byte` row: 14 letters, 0x00, 0x0A and 0x0D (R76). -/
def namedCommandBytes : List Byte :=
  [0x41#8, 0x61#8, 0x4C#8, 0x6C#8, 0x42#8, 0x62#8, 0x48#8, 0x68#8, 0x65#8, 0x45#8,
   0x53#8, 0x73#8, 0x50#8, 0x70#8, 0x00#8, 0x0A#8, 0x0D#8]

/-- The three bytes with an `rx_event` row of their own (R75). -/
def accumulatorBytes : List Byte := [Ascii.tab, Ascii.lf, Ascii.cr]

/-- The checks on an instruction's fields. -/
def Instr.wellFormed : Instr → Bool
  | .accOtherAppend b => !accumulatorBytes.contains b
  | .accOtherDrop b => !accumulatorBytes.contains b
  | .unknown c => !namedCommandBytes.contains c
  | .accIdle _ | .accTab | .accDelimLf | .accDelimCr => true
  | .setAddr _ | .setLen _ | .modeBin _ | .modeHex _ | .endianLittle | .endianBig => true
  | .start _ | .stats _ | .nopEmpty | .nopLf | .nopCr => true
  | .parseHex32 _ _ | .alignDown _ _ | .alignUp _ _ | .byteToHex _ _ => true
  | .word32ToHex _ _ | .word32ToRaw _ _ | .reservedFsel6 _ | .reservedFsel7 _ => true

/-- Whether the row applies in an accumulator that holds `len` bytes: `ACC_OTHER_APPEND` and `ACC_OTHER_DROP` have
the same words and are told apart by `FRAME_LEN` (spec/42_accumulator.md R155, R156). -/
def Instr.applies (len : Fin 12) : Instr → Bool
  | .accOtherAppend _ => len.val < Config.frameMaxLen
  | .accOtherDrop _ => len.val == Config.frameMaxLen
  | .accIdle _ | .accTab | .accDelimLf | .accDelimCr => true
  | .setAddr _ | .setLen _ | .modeBin _ | .modeHex _ | .endianLittle | .endianBig => true
  | .start _ | .stats _ | .nopEmpty | .nopLf | .nopCr | .unknown _ => true
  | .parseHex32 _ _ | .alignDown _ _ | .alignUp _ _ | .byteToHex _ _ => true
  | .word32ToHex _ _ | .word32ToRaw _ _ | .reservedFsel6 _ | .reservedFsel7 _ => true

end Sys2Proof
end

