-- ==== Sys2Proof/Decode.lean ====
section
/-! DEFINITION. The decoders of the three formats, in the first-match order of spec/30_encoding.md R75, R76 and
R79, and the encoder written from the same tables. Every word of each format decodes; a number that is too wide for
its format is rejected by name. -/

namespace Sys2Proof

/-- The data operands that ride beside a `codec_req` header (R74). -/
structure CodecOperands where
  inBytes : Vector Byte 10
  inValue : Word
  inByte  : Byte
  deriving DecidableEq, Repr

/-- All operands zero. -/
def zeroOperands : CodecOperands := ⟨Vector.replicate 10 0#8, 0#32, 0#8⟩

/-- An instruction as bits, in its format (R70). -/
inductive Encoded where
  | rx (e : RxWord)
  | cmd (c : Byte)
  | codec (hdr : CodecHeader) (ops : CodecOperands)
  deriving DecidableEq, Repr

/-! ## Fields -/

/-- `V`, bit 8 of an `rx_event`: a byte is present (R70). -/
def rxPresent (e : RxWord) : Bool := e.getLsbD 8

/-- `B`, bits 7:0 of an `rx_event` (R70). -/
def rxByte (e : RxWord) : Byte := e.extractLsb' 0 8

/-- The `rx_event` `{V, B}` (R70). -/
def rxWord (v : Bool) (b : Byte) : RxWord := BitVec.ofBool v ++ b

/-- Bit 5 of a command byte, the ASCII case bit: set in the lower-case letter (R70, R76). -/
def caseBit (c : Byte) : Bool := c.getLsbD 5

/-- `FSEL`, bits 2:0 of a `codec_req` (R70). -/
def codecFsel (h : CodecHeader) : BitVec 3 := h.extractLsb' 0 3

/-- `LE`, bit 3 of a `codec_req` (R70). -/
def codecLe (h : CodecHeader) : Bool := h.getLsbD 3

/-- The `codec_req` header `{LE, FSEL}` (R70). -/
def codecHeader (le : Bool) (fsel : BitVec 3) : CodecHeader := BitVec.ofBool le ++ fsel

/-! ## Decoders -/

/-- The `rx_event` map (R75), rows tried top to bottom; `ACC_OTHER` is the append row while
`FRAME_LEN < FRAME_CAPACITY − 1` and the drop row otherwise (R155, R156). -/
def decodeRx (len : Fin 12) (e : RxWord) : Instr :=
  if e &&& 0x100#9 = 0x000#9 then .accIdle (rxByte e)
  else if e = 0x109#9 then .accTab
  else if e = 0x10A#9 then .accDelimLf
  else if e = 0x10D#9 then .accDelimCr
  else if len.val < Config.frameMaxLen then .accOtherAppend (rxByte e)
  else .accOtherDrop (rxByte e)

/-- The `cmd_byte` map (R76), rows tried top to bottom; mask 0xDF ignores the case bit. -/
def decodeCmd (c : Byte) : Instr :=
  if c &&& 0xDF#8 = 0x41#8 then .setAddr (caseBit c)
  else if c &&& 0xDF#8 = 0x4C#8 then .setLen (caseBit c)
  else if c &&& 0xDF#8 = 0x42#8 then .modeBin (caseBit c)
  else if c &&& 0xDF#8 = 0x48#8 then .modeHex (caseBit c)
  else if c = 0x65#8 then .endianLittle
  else if c = 0x45#8 then .endianBig
  else if c &&& 0xDF#8 = 0x53#8 then .start (caseBit c)
  else if c &&& 0xDF#8 = 0x50#8 then .stats (caseBit c)
  else if c = 0x00#8 then .nopEmpty
  else if c = 0x0A#8 then .nopLf
  else if c = 0x0D#8 then .nopCr
  else .unknown c

/-- The `codec_req` map (R79); operands that the function does not use are ignored (R74). -/
def decodeCodec (h : CodecHeader) (ops : CodecOperands) : Instr :=
  if codecFsel h = 0b000#3 then .parseHex32 (codecLe h) ops.inBytes
  else if codecFsel h = 0b001#3 then .alignDown (codecLe h) ops.inValue
  else if codecFsel h = 0b010#3 then .alignUp (codecLe h) ops.inValue
  else if codecFsel h = 0b011#3 then .byteToHex (codecLe h) ops.inByte
  else if codecFsel h = 0b100#3 then .word32ToHex (codecLe h) ops.inValue
  else if codecFsel h = 0b101#3 then .word32ToRaw (codecLe h) ops.inValue
  else if codecFsel h = 0b110#3 then .reservedFsel6 (codecLe h)
  else .reservedFsel7 (codecLe h)

/-- The decoder of the block: the format names the decoder (R70), and `len` is `FRAME_LEN`, which the accumulator's
decoder reads. -/
def decode (len : Fin 12) : Encoded → Instr
  | .rx e => decodeRx len e
  | .cmd c => decodeCmd c
  | .codec h ops => decodeCodec h ops

/-! ## Encoder -/

/-- A command letter from its upper-case code and its case bit (R76). -/
def letter (upper : Byte) (lower : Bool) : Byte := if lower then upper ||| 0x20#8 else upper

/-- The word of an instruction, from the tables R75, R76 and R79; operands a codec function does not use are 0. -/
def encode : Instr → Encoded
  | .accIdle b => .rx (rxWord false b)
  | .accTab => .rx 0x109#9
  | .accDelimLf => .rx 0x10A#9
  | .accDelimCr => .rx 0x10D#9
  | .accOtherAppend b => .rx (rxWord true b)
  | .accOtherDrop b => .rx (rxWord true b)
  | .setAddr lower => .cmd (letter 0x41#8 lower)
  | .setLen lower => .cmd (letter 0x4C#8 lower)
  | .modeBin lower => .cmd (letter 0x42#8 lower)
  | .modeHex lower => .cmd (letter 0x48#8 lower)
  | .endianLittle => .cmd 0x65#8
  | .endianBig => .cmd 0x45#8
  | .start lower => .cmd (letter 0x53#8 lower)
  | .stats lower => .cmd (letter 0x50#8 lower)
  | .nopEmpty => .cmd 0x00#8
  | .nopLf => .cmd 0x0A#8
  | .nopCr => .cmd 0x0D#8
  | .unknown c => .cmd c
  | .parseHex32 le bs => .codec (codecHeader le 0b000#3) { zeroOperands with inBytes := bs }
  | .alignDown le v => .codec (codecHeader le 0b001#3) { zeroOperands with inValue := v }
  | .alignUp le v => .codec (codecHeader le 0b010#3) { zeroOperands with inValue := v }
  | .byteToHex le b => .codec (codecHeader le 0b011#3) { zeroOperands with inByte := b }
  | .word32ToHex le v => .codec (codecHeader le 0b100#3) { zeroOperands with inValue := v }
  | .word32ToRaw le v => .codec (codecHeader le 0b101#3) { zeroOperands with inValue := v }
  | .reservedFsel6 le => .codec (codecHeader le 0b110#3) zeroOperands
  | .reservedFsel7 le => .codec (codecHeader le 0b111#3) zeroOperands

/-! ## Numbers as words, and the opcode table's numbering -/

/-- The three ports a word can arrive at (R70). -/
inductive Port where
  | rx
  | cmd
  | codec
  deriving DecidableEq, Repr

/-- Why a number is no word of a format. -/
inductive DecodeError where
  /-- The number has a bit above bit 8. -/
  | rxEventTooWide
  /-- The number has a bit above bit 7. -/
  | cmdByteTooWide
  /-- The number has a bit above bit 3. -/
  | codecReqTooWide
  deriving DecidableEq, Repr

/-- A number as a word of the port's format, codec operands zero; total, rejecting by name. -/
def wordAt : Port → Nat → Except DecodeError Encoded
  | .rx, w => if w < 512 then .ok (.rx (BitVec.ofNat 9 w)) else .error .rxEventTooWide
  | .cmd, w => if w < 256 then .ok (.cmd (BitVec.ofNat 8 w)) else .error .cmdByteTooWide
  | .codec, w => if w < 16 then .ok (.codec (BitVec.ofNat 4 w) zeroOperands) else .error .codecReqTooWide

/-- The port of an opcode-table word given by its width in bits and its number. The table's 8-bit rows and its 4-bit
codec rows have the same width in whole bytes, so an 8-bit number is taken as a command byte where `cmd_byte` names it
(0x00, 0x0A, 0x0D) or where it does not fit a codec header, and as a codec header otherwise (notes/assumptions/13.md). -/
def tablePort (nbits w : Nat) : Port :=
  if 8 < nbits then .rx
  else if nbits ≤ 4 then .codec
  else if w = 0x00 ∨ w = 0x0A ∨ w = 0x0D ∨ 16 ≤ w then .cmd
  else .codec

/-- The opcode table's word `w` of `nbits` bits in its format. -/
def tableWord (nbits w : Nat) : Option Encoded :=
  match wordAt (tablePort nbits w) w with
  | .ok e => some e
  | .error _ => none

/-- The instruction the decoder reads from the opcode-table word `w`, in an accumulator that holds no byte, as after
reset. -/
def decodeTableWord (nbits w : Nat) : Option Instr :=
  (tableWord nbits w).map (decode 0)

end Sys2Proof
end

