-- ==== Sys2Proof/Machine/State.lean ====
section
/-! DEFINITION. The state of the block (spec/10_state.md R20), the host's moves still to come and what the host has
received (spec/60_exceptions.md R215 to R219), and the reasons a step can stop. -/

namespace Sys2Proof.Machine

/-- `ACC_STATE`: the accumulator has the one state `COLLECTING` (R24). -/
inductive AccState where
  | collecting
  deriving DecidableEq, Repr

/-- Why the block is held (R31). -/
inductive HoldReason where
  /-- `TX_BUSY`: `TXQ ≠ []`. -/
  | txBusy
  /-- `STATS_BUSY = 1`. -/
  | statsBusy
  deriving DecidableEq, Repr

/-- What a read of ControlState returns (R34; spec/60_exceptions.md R218). -/
structure ControlState where
  active               : Bool
  transmitHex          : Bool
  transmitLittleEndian : Bool
  readoutAddress       : Word
  readoutLen           : Word
  deriving DecidableEq, Repr

/-- The response of a `codec_req`: outputs the function does not produce are 0 or empty (spec/30_encoding.md R74). -/
structure CodecResponse where
  outValue : Word
  outCount : Nat
  outBytes : List Byte
  deriving DecidableEq, Repr

/-- One interaction of the host with the block (spec/60_exceptions.md R215 to R219, spec/70_reset_and_hazards.md
R230). Which moves the host makes, and in which order, is its free choice: a list of moves in the state
(notes/assumptions/1.md). -/
inductive Move where
  /-- The transport's answer to one poll: `V` = 1 with a byte, or `V` = 0 (R215). -/
  | offer (e : RxWord)
  /-- The host accepts the first `k + 1` bytes of `TXQ`, all of them if there are fewer (R216,
  notes/assumptions/5.md). -/
  | drain (k : Nat)
  /-- Statistics done (R217). -/
  | statsDone
  /-- The host reads the five ControlState registers (R218). -/
  | readControl
  /-- A codec request (R219). -/
  | codec (hdr : CodecHeader) (ops : CodecOperands)
  /-- A reset (R230). -/
  | reset
  deriving DecidableEq, Repr

/-- What the host receives from the block, and the event `StatsRequest` of R217 (notes/assumptions/6.md). -/
inductive Event where
  /-- The statistics request (R217). -/
  | statsRequest
  /-- Bytes drained from `TXQ`, in order (R216). -/
  | accepted (bytes : List Byte)
  /-- The values a read of ControlState returned (R218). -/
  | controlRead (c : ControlState)
  /-- The response of a codec request (R219). -/
  | codecResponse (r : CodecResponse)
  deriving DecidableEq, Repr

/-- The block's state, R20's table in its order, then the host's side. The ROM `LUT` of that table is the constant
`hexLut` (notes/assumptions/7.md). -/
structure State where
  /-- `FRAME[0..11]` (R21). -/
  frame                : Vector Byte 12
  /-- `FRAME_LEN`, 0..11 (R22). -/
  frameLen             : Fin 12
  /-- `ACC_STATE` (R24). -/
  accState             : AccState
  /-- `active` (R25). -/
  active               : Bool
  /-- `transmitHex` (R26). -/
  transmitHex          : Bool
  /-- `transmitLittleEndian` (R27). -/
  transmitLittleEndian : Bool
  /-- `readoutAddress` (R28). -/
  readoutAddress       : Word
  /-- `readoutLen` (R29). -/
  readoutLen           : Word
  /-- `TXQ`, head first (R30). -/
  txq                  : List Byte
  /-- `STATS_BUSY` (R32). -/
  statsBusy            : Bool
  /-- The output history, oldest first (spec/60_exceptions.md R217). -/
  history              : List Event
  /-- The host's moves still to come, next first: the model's own field, not the spec's. -/
  moves                : List Move
  deriving DecidableEq, Repr

/-- No rule of the block ends in a fault (spec/60_exceptions.md R200): there is no fault reason, so no step can raise
one. Safe: nothing is hidden behind a fault. -/
inductive Fault where
  deriving DecidableEq, Repr

/-- Why a step is refused. -/
inductive Refusal where
  /-- An instruction without a meaning. Raised by no arm of `exec`: every row has its meaning. Safe. -/
  | notModelled (mnemonic : String)
  /-- A codec request whose `FSEL` is reserved, raised by RESERVED_FSEL6 and RESERVED_FSEL7
  (spec/30_encoding.md R80). Safe: the model says nothing about what follows. -/
  | reservedCodecSelect (fsel : BitVec 3)
  deriving DecidableEq, Repr

/-- A frame of 12 zero bytes. -/
def emptyFrame : Vector Byte 12 := Vector.replicate 12 0x00#8

/-- The block right after reset, the reset column of R20, with no host move yet to come and nothing received. -/
def State.reset : State where
  frame := emptyFrame
  frameLen := 0
  accState := .collecting
  active := false
  transmitHex := true
  transmitLittleEndian := false
  readoutAddress := 0x00000000#32
  readoutLen := 0x00000000#32
  txq := []
  statsBusy := false
  history := []
  moves := []

end Sys2Proof.Machine
end

