-- ==== Sys2Proof/Machine/Messages.lean ====
section
/-! DEFINITION. The feedback byte strings of spec/43_dispatch.md R183, byte by byte as that table prints them. -/

namespace Sys2Proof.Machine

/-- `CRLF` = `[0x0D, 0x0A]`. -/
def crlf : List Byte := [0x0D#8, 0x0A#8]

/-- `MSG_ADDR`: `Start address set to 0x`. -/
def msgAddr : List Byte :=
  [0x53#8, 0x74#8, 0x61#8, 0x72#8, 0x74#8, 0x20#8, 0x61#8, 0x64#8, 0x64#8, 0x72#8, 0x65#8, 0x73#8, 0x73#8, 0x20#8,
   0x73#8, 0x65#8, 0x74#8, 0x20#8, 0x74#8, 0x6F#8, 0x20#8, 0x30#8, 0x78#8]

/-- `MSG_LEN`: `Readout length set to 0x`. -/
def msgLen : List Byte :=
  [0x52#8, 0x65#8, 0x61#8, 0x64#8, 0x6F#8, 0x75#8, 0x74#8, 0x20#8, 0x6C#8, 0x65#8, 0x6E#8, 0x67#8, 0x74#8, 0x68#8,
   0x20#8, 0x73#8, 0x65#8, 0x74#8, 0x20#8, 0x74#8, 0x6F#8, 0x20#8, 0x30#8, 0x78#8]

/-- `MSG_BIN`: `Binary output mode selected\r\n`. -/
def msgBin : List Byte :=
  [0x42#8, 0x69#8, 0x6E#8, 0x61#8, 0x72#8, 0x79#8, 0x20#8, 0x6F#8, 0x75#8, 0x74#8, 0x70#8, 0x75#8, 0x74#8, 0x20#8,
   0x6D#8, 0x6F#8, 0x64#8, 0x65#8, 0x20#8, 0x73#8, 0x65#8, 0x6C#8, 0x65#8, 0x63#8, 0x74#8, 0x65#8, 0x64#8, 0x0D#8,
   0x0A#8]

/-- `MSG_HEX`: `Hex output mode selected\r\n`. -/
def msgHex : List Byte :=
  [0x48#8, 0x65#8, 0x78#8, 0x20#8, 0x6F#8, 0x75#8, 0x74#8, 0x70#8, 0x75#8, 0x74#8, 0x20#8, 0x6D#8, 0x6F#8, 0x64#8,
   0x65#8, 0x20#8, 0x73#8, 0x65#8, 0x6C#8, 0x65#8, 0x63#8, 0x74#8, 0x65#8, 0x64#8, 0x0D#8, 0x0A#8]

/-- `MSG_LE`: `Little Endian mode enabled\r\n`. -/
def msgLe : List Byte :=
  [0x4C#8, 0x69#8, 0x74#8, 0x74#8, 0x6C#8, 0x65#8, 0x20#8, 0x45#8, 0x6E#8, 0x64#8, 0x69#8, 0x61#8, 0x6E#8, 0x20#8,
   0x6D#8, 0x6F#8, 0x64#8, 0x65#8, 0x20#8, 0x65#8, 0x6E#8, 0x61#8, 0x62#8, 0x6C#8, 0x65#8, 0x64#8, 0x0D#8, 0x0A#8]

/-- `MSG_BE`: `Big Endian mode enabled\r\n`. -/
def msgBe : List Byte :=
  [0x42#8, 0x69#8, 0x67#8, 0x20#8, 0x45#8, 0x6E#8, 0x64#8, 0x69#8, 0x61#8, 0x6E#8, 0x20#8, 0x6D#8, 0x6F#8, 0x64#8,
   0x65#8, 0x20#8, 0x65#8, 0x6E#8, 0x61#8, 0x62#8, 0x6C#8, 0x65#8, 0x64#8, 0x0D#8, 0x0A#8]

/-- `MSG_START`: `Flash readout started!\r\n`. -/
def msgStart : List Byte :=
  [0x46#8, 0x6C#8, 0x61#8, 0x73#8, 0x68#8, 0x20#8, 0x72#8, 0x65#8, 0x61#8, 0x64#8, 0x6F#8, 0x75#8, 0x74#8, 0x20#8,
   0x73#8, 0x74#8, 0x61#8, 0x72#8, 0x74#8, 0x65#8, 0x64#8, 0x21#8, 0x0D#8, 0x0A#8]

/-- `MSG_ERR`: `ERROR: unknown command\r\n`. -/
def msgErr : List Byte :=
  [0x45#8, 0x52#8, 0x52#8, 0x4F#8, 0x52#8, 0x3A#8, 0x20#8, 0x75#8, 0x6E#8, 0x6B#8, 0x6E#8, 0x6F#8, 0x77#8, 0x6E#8,
   0x20#8, 0x63#8, 0x6F#8, 0x6D#8, 0x6D#8, 0x61#8, 0x6E#8, 0x64#8, 0x0D#8, 0x0A#8]

end Sys2Proof.Machine
end

