-- ==== Sys2Proof/Machine/Flags.lean ====
section
/-! DEFINITION. The Boolean conditions of the block. It has no condition codes (spec/10_state.md R36); what a step
tests is the hold (R31) and whether the frame is full (spec/42_accumulator.md R155). -/

namespace Sys2Proof.Machine

/-- The reasons the block is held, none if it is not (R31). -/
def State.holdReasons (s : State) : List HoldReason :=
  (if s.txq.isEmpty then [] else [.txBusy]) ++ (if s.statsBusy then [.statsBusy] else [])

/-- Hold condition: `TXQ ≠ []` or `STATS_BUSY = 1` (R31). -/
def State.held (s : State) : Bool := !s.txq.isEmpty || s.statsBusy

/-- The append guard fails: `FRAME_LEN` is `FRAME_CAPACITY − 1` (R155, R156). -/
def State.frameFull (s : State) : Bool := s.frameLen.val == Config.frameMaxLen

end Sys2Proof.Machine
end

