-- ==== Sys2Proof/Machine/Operands.lean ====
section
/-! DEFINITION. The numeric codec, parse half (spec/40_codec_parse.md) and serializer half
(spec/41_codec_serialize.md): pure functions of their operands and of the LUT. -/

namespace Sys2Proof.Machine

/-! ## Parse half -/

/-- `hexDigitValue` (R100). -/
def hexDigitValue (b : Byte) : Option Nibble :=
  if 0x30#8 ≤ b ∧ b ≤ 0x39#8 then some ((b - 0x30#8).setWidth 4)
  else if 0x61#8 ≤ b ∧ b ≤ 0x66#8 then some ((b - 0x61#8 + 10#8).setWidth 4)
  else if 0x41#8 ≤ b ∧ b ≤ 0x46#8 then some ((b - 0x41#8 + 10#8).setWidth 4)
  else none

/-- `isHexDigit` (R101). -/
def isHexDigit (b : Byte) : Bool := (hexDigitValue b).isSome

/-- One accepted digit: shift the accumulator left 4 bits, losing bits past bit 31, and OR in the digit (R103). -/
def pushDigit (acc : Word) (d : Nibble) : Word := (acc <<< 4) ||| d.setWidth 32

/-- The scan of R103 with `fuel` bytes still to look at: it stops at the first non-hex byte or the end of input, and
answers the accumulator and the number of digits accepted. -/
def scanHex : (fuel : Nat) → List Byte → (acc : Word) → (n : Nat) → Word × Nat
  | 0, _, acc, n => (acc, n)
  | _ + 1, [], acc, n => (acc, n)
  | fuel + 1, b :: bs, acc, n =>
    match hexDigitValue b with
    | none => (acc, n)
    | some d => scanHex fuel bs (pushDigit acc d) (n + 1)

/-- `parseHex32` (R102, R103): value and `consumedCount` (R107) of the longest hex prefix of at most
`PARSE_SCAN_LIMIT` bytes. -/
def parseHex32 (input : List Byte) : Word × Nat := scanHex Config.parseScanLimit input 0#32 0

/-- `alignDown` (R110): the greatest multiple of 4 not above `v`. -/
def alignDown (v : Word) : Word := v &&& 0xFFFFFFFC#32

/-- `alignUp` under either behaviour near 2^32 (R112, R113). -/
def alignUpWith : AlignUpOverflow → Word → Word
  | .wrap, v => (v + 3#32) &&& 0xFFFFFFFC#32
  | .saturate, v => if 0xFFFFFFFC#32 < v then 0xFFFFFFFC#32 else (v + 3#32) &&& 0xFFFFFFFC#32

/-- `alignUp` (R112) with the decided overflow behaviour. -/
def alignUp (v : Word) : Word := alignUpWith Config.alignUpOverflow v

/-! ## Serializer half -/

/-- `LUT[n]`, the HexDigitTable (R130). -/
def hexLut (n : Nibble) : Byte :=
  if n ≤ 9#4 then 0x30#8 + n.setWidth 8
  else (if Config.hexUpper then 0x41#8 else 0x61#8) + (n.setWidth 8 - 10#8)

/-- `byteToHex`: high nibble first (R132). -/
def byteToHex (b : Byte) : List Byte := [hexLut (b.extractLsb' 4 4), hexLut (b.extractLsb' 0 4)]

/-- `wordBytes`: `B3 B2 B1 B0` for big-endian, `B0 B1 B2 B3` for little-endian (R133, R134). -/
def wordBytes (v : Word) (le : Bool) : List Byte :=
  if le then [v.extractLsb' 0 8, v.extractLsb' 8 8, v.extractLsb' 16 8, v.extractLsb' 24 8]
  else [v.extractLsb' 24 8, v.extractLsb' 16 8, v.extractLsb' 8 8, v.extractLsb' 0 8]

/-- `word32ToHexBytes` (R135): each byte of `wordBytes`, in order, expanded by `byteToHex`. -/
def word32ToHexBytes (v : Word) (le : Bool) : List Byte := (wordBytes v le).flatMap byteToHex

/-- `word32ToRawBytes` (R136). -/
def word32ToRawBytes (v : Word) (le : Bool) : List Byte := wordBytes v le

/-- `hex8`: the text of a stored value in feedback, always big-endian hex (spec/43_dispatch.md R182). -/
def hex8 (v : Word) : List Byte := word32ToHexBytes v false

end Sys2Proof.Machine
end

