-- ==== Sys2Proof/Machine/Ops.lean ====
section
/-! DEFINITION. The named operations on the state: reads of the frame, the register writes, `Emit`, `Report`, the
append and `clear`, and the choice of the host's next move. The block takes no exception and returns from none
(spec/60_exceptions.md R200, R207), and has no addressable memory (spec/20_memory.md R50), so there is no operation for
either. -/

namespace Sys2Proof.Machine

/-! ## Reads -/

/-- The command byte `C` = `FRAME[0]` (spec/30_encoding.md R71). -/
def State.cmdByte (s : State) : Byte := s.frame[0]

/-- The argument bytes `FRAME[1..10]` (R71, spec/40_codec_parse.md R108). -/
def State.argBytes (s : State) : List Byte := (s.frame.toList.drop 1).take 10

/-- The hex argument of a frame, before alignment (spec/30_encoding.md R73). -/
def State.argValue (s : State) : Word := (parseHex32 s.argBytes).1

/-- The five ControlState registers as one value (spec/10_state.md R34). -/
def State.controlState (s : State) : ControlState :=
  ⟨s.active, s.transmitHex, s.transmitLittleEndian, s.readoutAddress, s.readoutLen⟩

/-! ## Writes -/

/-- Writes `active` (spec/10_state.md R25). -/
def State.setActive (s : State) (v : Bool) : State := { s with active := v }

/-- Writes `transmitHex` (R26). -/
def State.setTransmitHex (s : State) (v : Bool) : State := { s with transmitHex := v }

/-- Writes `transmitLittleEndian` (R27). -/
def State.setTransmitLittleEndian (s : State) (v : Bool) : State := { s with transmitLittleEndian := v }

/-- Writes `readoutAddress` (R28). -/
def State.setReadoutAddress (s : State) (v : Word) : State := { s with readoutAddress := v }

/-- Writes `readoutLen` (R29). -/
def State.setReadoutLen (s : State) (v : Word) : State := { s with readoutLen := v }

/-- Writes `STATS_BUSY` (R32). -/
def State.setStatsBusy (s : State) (v : Bool) : State := { s with statsBusy := v }

/-- Replaces `TXQ`. -/
def State.setTxq (s : State) (q : List Byte) : State := { s with txq := q }

/-- Replaces the host's moves still to come. -/
def State.setMoves (s : State) (ms : List Move) : State := { s with moves := ms }

/-- Records an event at the end of the output history (spec/60_exceptions.md R217). -/
def State.record (s : State) (e : Event) : State := { s with history := s.history ++ [e] }

/-- `Emit(bytes)`: appends to the tail of `TXQ`, in order (spec/00_scope.md R8, spec/10_state.md R30). -/
def State.emit (s : State) (bytes : List Byte) : State := s.setTxq (s.txq ++ bytes)

/-- `Report()` with the hold it brings: `STATS_BUSY <- 1` and the event `StatsRequest` (spec/43_dispatch.md R178,
spec/60_exceptions.md R217). -/
def State.report (s : State) : State := (s.setStatsBusy true).record .statsRequest

/-- Replaces the frame and its length together. -/
def State.setFrame (s : State) (f : Vector Byte 12) (len : Fin 12) : State := { s with frame := f, frameLen := len }

/-- `clear()`: zeroes all 12 slots and `FRAME_LEN` (spec/42_accumulator.md R158). -/
def State.clearFrame (s : State) : State := s.setFrame emptyFrame 0

/-- `FRAME[FRAME_LEN] <- b; FRAME_LEN <- FRAME_LEN + 1` while `FRAME_LEN < FRAME_CAPACITY − 1` (R155). A full frame
stays as it is: no rule writes slot 11 (R156, notes/assumptions/10.md). -/
def State.appendByte (s : State) (b : Byte) : State :=
  if h : s.frameLen.val < 11 then
    s.setFrame (s.frame.set s.frameLen.val b) ⟨s.frameLen.val + 1, by omega⟩
  else s

/-! ## The host's next move -/

/-- The host's next move and the moves after it. While the block is held it polls nothing, so offers are passed over
and stay where they are, and the first other move acts (spec/10_state.md R31, spec/60_exceptions.md R215,
notes/assumptions/2.md). -/
def takeMove (held : Bool) : List Move → Option (Move × List Move)
  | [] => none
  | .offer e :: ms =>
    if held then (takeMove held ms).map (fun p => (p.1, .offer e :: p.2)) else some (.offer e, ms)
  | .drain k :: ms => some (.drain k, ms)
  | .statsDone :: ms => some (.statsDone, ms)
  | .readControl :: ms => some (.readControl, ms)
  | .codec h ops :: ms => some (.codec h ops, ms)
  | .reset :: ms => some (.reset, ms)

end Sys2Proof.Machine
end

