-- ==== Sys2Proof/Machine/Command.lean ====
section
/-! DEFINITION. The commands of spec/43_dispatch.md: what each does to the state when the dispatch stage selects it,
before the clear that follows every dispatch (R170; notes/assumptions/12.md). -/

namespace Sys2Proof.Machine

/-! ## The actions -/

/-- `SET_ADDR` (R171). -/
def setAddr (s : State) : State :=
  (s.setReadoutAddress (alignDown s.argValue)).emit (msgAddr ++ hex8 (alignDown s.argValue) ++ crlf)

/-- `SET_LEN` (R172). -/
def setLen (s : State) : State :=
  (s.setReadoutLen (alignUp s.argValue)).emit (msgLen ++ hex8 (alignUp s.argValue) ++ crlf)

/-- `MODE_BIN` (R173). -/
def modeBin (s : State) : State := (s.setTransmitHex false).emit msgBin

/-- `MODE_HEX` (R174). -/
def modeHex (s : State) : State := (s.setTransmitHex true).emit msgHex

/-- `ENDIAN_LITTLE` (R175). -/
def endianLittle (s : State) : State := (s.setTransmitLittleEndian true).emit msgLe

/-- `ENDIAN_BIG` (R176). -/
def endianBig (s : State) : State := (s.setTransmitLittleEndian false).emit msgBe

/-- `START` (R177). -/
def startReadout (s : State) : State := (s.setActive true).emit msgStart

/-- `STATS` (R178): the block emits nothing itself. -/
def requestStats (s : State) : State := s.report

/-- `NOP_EMPTY` (R179): nothing. -/
def nopEmpty (s : State) : State := s

/-- `NOP_LF` (R180): nothing. -/
def nopLf (s : State) : State := s

/-- `NOP_CR` (R180): nothing. -/
def nopCr (s : State) : State := s

/-- `UNKNOWN` (R181): the error line, nothing else. -/
def unknownCommand (s : State) : State := s.emit msgErr

/-- The action of a decoded command byte (R170). The rows of the other formats are no commands, and the `cmd_byte`
decoder answers none of them. -/
def runCommand (i : Instr) (s : State) : State :=
  match i with
  | .setAddr _ => setAddr s
  | .setLen _ => setLen s
  | .modeBin _ => modeBin s
  | .modeHex _ => modeHex s
  | .endianLittle => endianLittle s
  | .endianBig => endianBig s
  | .start _ => startReadout s
  | .stats _ => requestStats s
  | .nopEmpty => nopEmpty s
  | .nopLf => nopLf s
  | .nopCr => nopCr s
  | .unknown _ => unknownCommand s
  | .accIdle _ | .accTab | .accDelimLf | .accDelimCr | .accOtherAppend _ | .accOtherDrop _ => s
  | .parseHex32 _ _ | .alignDown _ _ | .alignUp _ _ | .byteToHex _ _ => s
  | .word32ToHex _ _ | .word32ToRaw _ _ | .reservedFsel6 _ | .reservedFsel7 _ => s

/-- `dispatch()`: the action that `FRAME[0]` alone selects (R170). -/
def dispatch (s : State) : State := runCommand (decodeCmd s.cmdByte) s

/-! ## The meanings -/

/-- SET_ADDR (R171), either case of the letter. -/
def execSetAddr (_lower : Bool) (s : State) : Host.Outcome State Fault Refusal := .next (setAddr s)

/-- SET_LEN (R172), either case of the letter. -/
def execSetLen (_lower : Bool) (s : State) : Host.Outcome State Fault Refusal := .next (setLen s)

/-- MODE_BIN (R173), either case of the letter. -/
def execModeBin (_lower : Bool) (s : State) : Host.Outcome State Fault Refusal := .next (modeBin s)

/-- MODE_HEX (R174), either case of the letter. -/
def execModeHex (_lower : Bool) (s : State) : Host.Outcome State Fault Refusal := .next (modeHex s)

/-- ENDIAN_LITTLE (R175), `e` only. -/
def execEndianLittle (s : State) : Host.Outcome State Fault Refusal := .next (endianLittle s)

/-- ENDIAN_BIG (R176), `E` only. -/
def execEndianBig (s : State) : Host.Outcome State Fault Refusal := .next (endianBig s)

/-- START (R177), either case of the letter. -/
def execStart (_lower : Bool) (s : State) : Host.Outcome State Fault Refusal := .next (startReadout s)

/-- STATS (R178), either case of the letter. -/
def execStats (_lower : Bool) (s : State) : Host.Outcome State Fault Refusal := .next (requestStats s)

/-- NOP_EMPTY (R179). -/
def execNopEmpty (s : State) : Host.Outcome State Fault Refusal := .next (nopEmpty s)

/-- NOP_LF (R180). -/
def execNopLf (s : State) : Host.Outcome State Fault Refusal := .next (nopLf s)

/-- NOP_CR (R180). -/
def execNopCr (s : State) : Host.Outcome State Fault Refusal := .next (nopCr s)

/-- UNKNOWN (R181), whichever byte it is. -/
def execUnknown (_c : Byte) (s : State) : Host.Outcome State Fault Refusal := .next (unknownCommand s)

end Sys2Proof.Machine
end

