-- ==== Sys2Proof/Machine/Accumulator.lean ====
section
/-! DEFINITION. The intake step of spec/42_accumulator.md, one meaning per event class. The hold is tested by the
step, which polls nothing while the block is held (R150; notes/assumptions/9.md). -/

namespace Sys2Proof.Machine

/-- A delimiter: `dispatch(); clear()` in one step, an empty frame included (R153, R159). -/
def delimiter (s : State) : State := (dispatch s).clearFrame

/-- ACC_IDLE (R151): no byte, nothing changes; `B` is ignored. -/
def execAccIdle (_b : Byte) (s : State) : Host.Outcome State Fault Refusal := .next s

/-- ACC_TAB (R152): ignored, no state change. -/
def execAccTab (s : State) : Host.Outcome State Fault Refusal := .next s

/-- ACC_DELIM_LF (R154). -/
def execAccDelimLf (s : State) : Host.Outcome State Fault Refusal := .next (delimiter s)

/-- ACC_DELIM_CR (R153). -/
def execAccDelimCr (s : State) : Host.Outcome State Fault Refusal := .next (delimiter s)

/-- ACC_OTHER_APPEND (R155). -/
def execAccOtherAppend (b : Byte) (s : State) : Host.Outcome State Fault Refusal := .next (s.appendByte b)

/-- ACC_OTHER_DROP (R156): the byte is dropped without error. -/
def execAccOtherDrop (_b : Byte) (s : State) : Host.Outcome State Fault Refusal := .next s

end Sys2Proof.Machine
end

