-- ==== Sys2Proof/Machine/Codec.lean ====
section
/-! DEFINITION. The codec port (spec/60_exceptions.md R219; spec/30_encoding.md R74, R79): a request reads its operands
and the LUT, changes nothing of the block, and its response goes to the host (notes/assumptions/16.md). -/

namespace Sys2Proof.Machine

/-- The host receives a response. -/
def respond (r : CodecResponse) (s : State) : Host.Outcome State Fault Refusal := .next (s.record (.codecResponse r))

/-- A response that is a word: `OUT_VALUE` only. -/
def valueResponse (v : Word) : CodecResponse := ⟨v, 0, []⟩

/-- A response that is text or raw bytes: `OUT_BYTES` only. -/
def bytesResponse (bs : List Byte) : CodecResponse := ⟨0#32, 0, bs⟩

/-- PARSEHEX32 (R103): `OUT_VALUE` and `OUT_COUNT`; `LE` ignored. -/
def execParseHex32 (_le : Bool) (inBytes : Vector Byte 10) (s : State) : Host.Outcome State Fault Refusal :=
  respond ⟨(parseHex32 inBytes.toList).1, (parseHex32 inBytes.toList).2, []⟩ s

/-- ALIGNDOWN (R110); `LE` ignored. -/
def execAlignDown (_le : Bool) (inValue : Word) (s : State) : Host.Outcome State Fault Refusal :=
  respond (valueResponse (alignDown inValue)) s

/-- ALIGNUP (R112); `LE` ignored. -/
def execAlignUp (_le : Bool) (inValue : Word) (s : State) : Host.Outcome State Fault Refusal :=
  respond (valueResponse (alignUp inValue)) s

/-- BYTETOHEX (R132); `LE` ignored. -/
def execByteToHex (_le : Bool) (inByte : Byte) (s : State) : Host.Outcome State Fault Refusal :=
  respond (bytesResponse (byteToHex inByte)) s

/-- WORD32TOHEX (R135). -/
def execWord32ToHex (le : Bool) (inValue : Word) (s : State) : Host.Outcome State Fault Refusal :=
  respond (bytesResponse (word32ToHexBytes inValue le)) s

/-- WORD32TORAW (R136). -/
def execWord32ToRaw (le : Bool) (inValue : Word) (s : State) : Host.Outcome State Fault Refusal :=
  respond (bytesResponse (word32ToRawBytes inValue le)) s

/-- RESERVED_FSEL6: refused (R80). -/
def execReservedFsel6 (_le : Bool) (_s : State) : Host.Outcome State Fault Refusal :=
  .refused (.reservedCodecSelect 0b110#3)

/-- RESERVED_FSEL7: refused (R80). -/
def execReservedFsel7 (_le : Bool) (_s : State) : Host.Outcome State Fault Refusal :=
  .refused (.reservedCodecSelect 0b111#3)

end Sys2Proof.Machine
end

