-- ==== Sys2Proof/Machine/Dispatch.lean ====
section
/-! DEFINITION. `exec`: the meaning of each instruction, one arm per constructor of `Instr`. -/

namespace Sys2Proof.Machine

def exec (i : Instr) (s : State) : Host.Outcome State Fault Refusal :=
  match i with
  -- rx_event (spec/42_accumulator.md)
  | .accIdle b => Sys2Proof.Machine.execAccIdle b s
  | .accTab => Sys2Proof.Machine.execAccTab s
  | .accDelimLf => Sys2Proof.Machine.execAccDelimLf s
  | .accDelimCr => Sys2Proof.Machine.execAccDelimCr s
  | .accOtherAppend b => Sys2Proof.Machine.execAccOtherAppend b s
  | .accOtherDrop b => Sys2Proof.Machine.execAccOtherDrop b s
  -- cmd_byte (spec/43_dispatch.md)
  | .setAddr lower => Sys2Proof.Machine.execSetAddr lower s
  | .setLen lower => Sys2Proof.Machine.execSetLen lower s
  | .modeBin lower => Sys2Proof.Machine.execModeBin lower s
  | .modeHex lower => Sys2Proof.Machine.execModeHex lower s
  | .endianLittle => Sys2Proof.Machine.execEndianLittle s
  | .endianBig => Sys2Proof.Machine.execEndianBig s
  | .start lower => Sys2Proof.Machine.execStart lower s
  | .stats lower => Sys2Proof.Machine.execStats lower s
  | .nopEmpty => Sys2Proof.Machine.execNopEmpty s
  | .nopLf => Sys2Proof.Machine.execNopLf s
  | .nopCr => Sys2Proof.Machine.execNopCr s
  | .unknown c => Sys2Proof.Machine.execUnknown c s
  -- codec_req (spec/40_codec_parse.md, spec/41_codec_serialize.md)
  | .parseHex32 le inBytes => Sys2Proof.Machine.execParseHex32 le inBytes s
  | .alignDown le inValue => Sys2Proof.Machine.execAlignDown le inValue s
  | .alignUp le inValue => Sys2Proof.Machine.execAlignUp le inValue s
  | .byteToHex le inByte => Sys2Proof.Machine.execByteToHex le inByte s
  | .word32ToHex le inValue => Sys2Proof.Machine.execWord32ToHex le inValue s
  | .word32ToRaw le inValue => Sys2Proof.Machine.execWord32ToRaw le inValue s
  | .reservedFsel6 le => Sys2Proof.Machine.execReservedFsel6 le s
  | .reservedFsel7 le => Sys2Proof.Machine.execReservedFsel7 le s

end Sys2Proof.Machine
end

