-- ==== Sys2Proof/Machine/HostPort.lean ====
section
/-! DEFINITION. The host's moves that are no row of the opcode table: drain, statistics done, a read of ControlState
(spec/60_exceptions.md R216 to R218) and reset (spec/70_reset_and_hazards.md R230). -/

namespace Sys2Proof.Machine

/-- The host accepts the first `k + 1` bytes of `TXQ`, unchanged and in order (R216). With nothing to accept there is
no such move, and nothing happens (notes/assumptions/5.md). -/
def hostDrain (k : Nat) (s : State) : State :=
  if s.txq.isEmpty then s
  else (s.setTxq (s.txq.drop (k + 1))).record (.accepted (s.txq.take (k + 1)))

/-- `STATS_BUSY <- 0` (R217). -/
def hostStatsDone (s : State) : State := s.setStatsBusy false

/-- The five registers go to the host; no side effect on the block (R218). -/
def hostReadControl (s : State) : State := s.record (.controlRead s.controlState)

/-- Every piece of R20's state takes its reset value, `TXQ` and a pending request are discarded (R230); the host keeps
its moves and what it has received (notes/assumptions/18.md). -/
def hostReset (s : State) : State := { State.reset with history := s.history, moves := s.moves }

end Sys2Proof.Machine
end

