-- ==== Sys2Proof/Machine/Poll.lean ====
section
/-! DEFINITION. What the move of a step does (spec/60_exceptions.md R215 to R219), and where an instruction's word is
put for the next step to take it. -/

namespace Sys2Proof.Machine

/-- What a move does, once it is the move of this step: the event or the request is decoded and run, the host's other
moves act. -/
def runMove (m : Move) (s : State) : Host.Outcome State Fault Refusal :=
  match m with
  | .offer e => exec (decodeRx s.frameLen e) s
  | .drain k => .next (hostDrain k s)
  | .statsDone => .next (hostStatsDone s)
  | .readControl => .next (hostReadControl s)
  | .codec h ops => exec (decodeCodec h ops) s
  | .reset => .next (hostReset s)

/-- A step for which the host has no move. A held block takes no step: it stays as it is, for as long as the host does
nothing (R206; notes/assumptions/3.md). A block that is not held polls and finds no byte (spec/42_accumulator.md R151;
notes/assumptions/4.md). -/
def runNoMove (s : State) : Host.Outcome State Fault Refusal :=
  if s.held then .next s else exec (decodeRx s.frameLen 0x000#9) s

/-- The block not held: what an intake step needs (spec/10_state.md R31). -/
def State.release (s : State) : State := (s.setTxq []).setStatsBusy false

/-- `s` with the encoded instruction where the next step takes it. An `rx_event` is the host's next offer, a codec
request its next call; a command byte is the frame, alone, with a delimiter as the next offer. An intake step needs a
block that is not held, so the hold is lifted for the first and the third (notes/assumptions/14.md). -/
def State.withEncoded (s : State) : Encoded → State
  | .rx e => s.release.setMoves (.offer e :: s.moves)
  | .cmd c => ((s.release.clearFrame).appendByte c).setMoves (.offer 0x10D#9 :: s.moves)
  | .codec h ops => s.setMoves (.codec h ops :: s.moves)

end Sys2Proof.Machine
end

