-- ==== Sys2Proof/Machine/Step.lean ====
section
/-! DEFINITION. One step of the block and its host (spec/00_scope.md R4; spec/60_exceptions.md R221). -/

namespace Sys2Proof.Machine

/-- One step: the host's next move, taken out of its list, and what the block does with it. -/
def step (s : State) : Host.Outcome State Fault Refusal :=
  match takeMove s.held s.moves with
  | some (m, rest) => runMove m (s.setMoves rest)
  | none => runNoMove s

/-- `s` with the opcode table's word `w` of `nbits` bits where the next step takes it; `s` itself for a number that is
no word. -/
def State.withFetchWord (s : State) (nbits w : Nat) : State :=
  match tableWord nbits w with
  | some e => s.withEncoded e
  | none => s

end Sys2Proof.Machine
end

