-- ==== Sys2Proof/Safety.lean ====
section
/-! DEFINITION. What a sound state is, and what kind of step comes next. -/

namespace Sys2Proof.Machine

/-- The three kinds of step a model must tell apart (spec/60_exceptions.md R221); there is no fault. -/
inductive StepClass where
  | taken
  | held
  | refused (fsel : BitVec 3)
  deriving DecidableEq, Repr

/-- The kind of the next step (R221): refused only for a codec request with a reserved `FSEL`, held when the block is
held and no move of the host can act, taken otherwise. DESIGN CHOICE (notes/assumptions/27.md): R221 lists as taken only
R215 to R217 and the intake and dispatch rules, and gives no kind to a read of ControlState, an answered codec request or
a reset; here each is taken, in a held block too. -/
def State.stepClass (s : State) : StepClass :=
  match takeMove s.held s.moves with
  | none => if s.held then .held else .taken
  | some (.codec h _, _) => if codecFsel h = 0b110#3 ∨ codecFsel h = 0b111#3 then .refused (codecFsel h) else .taken
  | some (.offer _, _) | some (.drain _, _) | some (.statsDone, _) | some (.readControl, _) | some (.reset, _) =>
    .taken

/-- `n` steps, stopping at the first that gives no next state: `Host.Core.run` of this machine. -/
def run : Nat → State → Host.Outcome State Fault Refusal
  | 0, s => .next s
  | n + 1, s =>
    match step s with
    | .next s' => run n s'
    | .fault r => .fault r
    | .refused r => .refused r

/-- The move the next step takes, if any. -/
def State.nextMove (s : State) : Option Move := (takeMove s.held s.moves).map Prod.fst

/-- The command the next step dispatches: that of `FRAME[0]`, if its move offers a delimiter. -/
def State.nextCommand (s : State) : Option Instr :=
  if s.nextMove = some (.offer 0x10A#9) ∨ s.nextMove = some (.offer 0x10D#9) then some (decodeCmd s.cmdByte) else none

/-- Is the move an offer of a poll answer? -/
def Move.isOffer : Move → Bool
  | .offer _ => true
  | .drain _ | .statsDone | .readControl | .codec _ _ | .reset => false

/-- The bytes an event brought to the host from `TXQ`. -/
def Event.acceptedBytes : Event → List Byte
  | .accepted bs => bs
  | .statsRequest | .controlRead _ | .codecResponse _ => []

/-- Every feedback byte emitted and not discarded by a reset: what the host has accepted, then what still waits. -/
def State.feedback (s : State) : List Byte := s.history.flatMap Event.acceptedBytes ++ s.txq

/-- The invariants of spec/10_state.md: the frame is zero beyond its length (R23) and holds no tab and no delimiter
(spec/30_encoding.md R77), the window registers are multiples of 4 (R28, R29), `TXQ` holds at most `TXQ_MAX` bytes
(R30), and a held block has an empty frame and only one reason to be held. -/
structure State.Inv (s : State) : Prop where
  zeroBeyond : ∀ i (h : i < 12), s.frameLen.val ≤ i → s.frame[i] = 0x00#8
  storedOther : ∀ i (h : i < 12), i < s.frameLen.val → s.frame[i] ∉ accumulatorBytes
  addrAligned : s.readoutAddress.toNat % 4 = 0
  lenAligned : s.readoutLen.toNat % 4 = 0
  txqBounded : s.txq.length ≤ Config.txqMax
  heldEmpty : s.held = true → s.frameLen.val = 0
  oneHold : s.txq = [] ∨ s.statsBusy = false

end Sys2Proof.Machine
end

