-- ==== Sys2Proof/Certificates/Slice0/Obligations.lean ====
section
/-! DEFINITION. The statements about the model, for the provers. -/

open Sys2Proof Sys2Proof.Machine

/-! ## Reset, invariants, ControlState -/

/-- The reset column of spec/10_state.md R20: the values right after reset. -/
def Obligations.ResetLeavesTheResetColumn : Prop :=
  (∀ i (h : i < 12), State.reset.frame[i] = 0x00#8) ∧ State.reset.frameLen.val = 0 ∧
  State.reset.accState = .collecting ∧ State.reset.active = false ∧ State.reset.transmitHex = true ∧
  State.reset.transmitLittleEndian = false ∧ State.reset.readoutAddress = 0x00000000#32 ∧
  State.reset.readoutLen = 0x00000000#32 ∧ State.reset.txq = [] ∧ State.reset.statsBusy = false ∧
  State.reset.held = false

/-- A reset taken in any state, held or not, behind offers that a held block passes over or not (log 2), restores every
field of the block, discards `TXQ` and a pending statistics request, and leaves the host its moves and what it has
received (R230; the last clause is the model's choice, log 18). -/
def Obligations.ResetMoveRestoresEveryRegister : Prop :=
  ∀ (s : State) (rest : List Move), takeMove s.held s.moves = some (.reset, rest) →
    step s = .next { State.reset with history := s.history, moves := rest }

/-- The invariants hold at reset. -/
def Obligations.InvariantsHoldAtReset : Prop := State.reset.Inv

/-- Every step keeps the invariants: the frame is zero beyond its length (R23) and holds no tab or delimiter (R77), the
window registers are multiples of 4 (R28, R29), `TXQ` holds at most 34 bytes (R30), and a held block has an empty frame
and one reason to be held. -/
def Obligations.EveryStepKeepsTheInvariants : Prop :=
  ∀ (s s' : State), s.Inv → step s = .next s' → s'.Inv

/-- R25: `active` is 0 at reset, a step other than a reset leaves it set exactly if it was set or the step dispatches
`s`/`S`, and along any run without a reset it stays set. -/
def Obligations.ActiveIsSetOnlyByStartAndStaysSet : Prop :=
  State.reset.active = false ∧
  (∀ (s s' : State), step s = .next s' → s.nextMove ≠ some .reset →
    (s'.active = true ↔ s.active = true ∨ ∃ lower, s.nextCommand = some (.start lower))) ∧
  (∀ (n : Nat) (s t : State), Move.reset ∉ s.moves → s.active = true →
    Machine.run n s = .next t → t.active = true)

/-- The next value of the five ControlState registers in every step that is no reset: the seven writing commands
write theirs, and nothing else (another command, an intake without dispatch, a drain, a read, a codec call) writes
any (R25 to R29, R34). -/
def Obligations.ControlStateChangesOnlyAtItsCommands : Prop :=
  ∀ (s s' : State), step s = .next s' → s.nextMove ≠ some .reset →
    (∀ lower, s.nextCommand = some (.setAddr lower) →
      s'.controlState = { s.controlState with readoutAddress := alignDown s.argValue }) ∧
    (∀ lower, s.nextCommand = some (.setLen lower) →
      s'.controlState = { s.controlState with readoutLen := alignUp s.argValue }) ∧
    (∀ lower, s.nextCommand = some (.modeBin lower) →
      s'.controlState = { s.controlState with transmitHex := false }) ∧
    (∀ lower, s.nextCommand = some (.modeHex lower) →
      s'.controlState = { s.controlState with transmitHex := true }) ∧
    (s.nextCommand = some .endianLittle →
      s'.controlState = { s.controlState with transmitLittleEndian := true }) ∧
    (s.nextCommand = some .endianBig →
      s'.controlState = { s.controlState with transmitLittleEndian := false }) ∧
    (∀ lower, s.nextCommand = some (.start lower) →
      s'.controlState = { s.controlState with active := true }) ∧
    ((∀ i, s.nextCommand = some i → i = .nopEmpty ∨ i = .nopLf ∨ i = .nopCr ∨ (∃ lower, i = .stats lower) ∨
        ∃ c, i = .unknown c) →
      s'.controlState = s.controlState)

/-! ## Encodings -/

/-- Decoding the word of a well-formed instruction gives the instruction back, with every operand at every value, in an
accumulator where the row applies. -/
def Obligations.DecodeOfEncodeIsIdentity : Prop :=
  ∀ (len : Fin 12) (i : Instr), i.wellFormed = true → i.applies len = true → decode len (encode i) = i

/-- Every word decodes to a well-formed instruction whose row applies, and that instruction's word is the word that was
decoded: no bit of an `rx_event`, of a command byte, of a codec header or of the operand that its function uses is lost.
(The packing of an `rx_event` is the spec's decision D3, log 26, and the codec request's whole format its decision D8,
log 16.) -/
def Obligations.EncodeOfDecodeIsTheWord : Prop :=
  (∀ (len : Fin 12) (w : Encoded), (decode len w).wellFormed = true ∧ (decode len w).applies len = true) ∧
  (∀ (len : Fin 12) (e : RxWord), encode (decode len (.rx e)) = .rx e) ∧
  (∀ (len : Fin 12) (c : Byte), encode (decode len (.cmd c)) = .cmd c) ∧
  (∀ (len : Fin 12) (h : CodecHeader) (ops : CodecOperands),
    ∃ ops', encode (decode len (.codec h ops)) = .codec h ops' ∧
      (codecFsel h = 0b000#3 → ops'.inBytes = ops.inBytes) ∧
      (codecFsel h = 0b001#3 ∨ codecFsel h = 0b010#3 ∨ codecFsel h = 0b100#3 ∨ codecFsel h = 0b101#3 →
        ops'.inValue = ops.inValue) ∧
      (codecFsel h = 0b011#3 → ops'.inByte = ops.inByte))

/-- The `rx_event` map (R75) in first-match order; every word is `{0, b}` or `{1, b}`. That the decoder splits the default
row by `FRAME_LEN`, as R155 and R156 split its effect, is the model's reading (log 10). The 9-bit packing is the spec's
decision D3, log 26. -/
def Obligations.RxEventMapIsTheTable : Prop :=
  (∀ (len : Fin 12) (b : Byte), decodeRx len (rxWord false b) = .accIdle b) ∧
  (∀ len : Fin 12, decodeRx len 0x109#9 = .accTab) ∧
  (∀ len : Fin 12, decodeRx len 0x10A#9 = .accDelimLf) ∧
  (∀ len : Fin 12, decodeRx len 0x10D#9 = .accDelimCr) ∧
  (∀ (len : Fin 12) (b : Byte), b ≠ 0x09#8 → b ≠ 0x0A#8 → b ≠ 0x0D#8 → len.val < 11 →
    decodeRx len (rxWord true b) = .accOtherAppend b) ∧
  (∀ (len : Fin 12) (b : Byte), b ≠ 0x09#8 → b ≠ 0x0A#8 → b ≠ 0x0D#8 → len.val = 11 →
    decodeRx len (rxWord true b) = .accOtherDrop b) ∧
  (∀ e : RxWord, ∃ b, e = rxWord false b ∨ e = rxWord true b)

/-- The `cmd_byte` map (R76): 14 letters and three control codes have a named row, the other 239 bytes are UNKNOWN. -/
def Obligations.CommandByteMapIsTheTable : Prop :=
  decodeCmd 0x41#8 = .setAddr false ∧ decodeCmd 0x61#8 = .setAddr true ∧
  decodeCmd 0x4C#8 = .setLen false ∧ decodeCmd 0x6C#8 = .setLen true ∧
  decodeCmd 0x42#8 = .modeBin false ∧ decodeCmd 0x62#8 = .modeBin true ∧
  decodeCmd 0x48#8 = .modeHex false ∧ decodeCmd 0x68#8 = .modeHex true ∧
  decodeCmd 0x65#8 = .endianLittle ∧ decodeCmd 0x45#8 = .endianBig ∧
  decodeCmd 0x53#8 = .start false ∧ decodeCmd 0x73#8 = .start true ∧
  decodeCmd 0x50#8 = .stats false ∧ decodeCmd 0x70#8 = .stats true ∧
  decodeCmd 0x00#8 = .nopEmpty ∧ decodeCmd 0x0A#8 = .nopLf ∧ decodeCmd 0x0D#8 = .nopCr ∧
  (∀ c : Byte, c ∉ namedCommandBytes → decodeCmd c = .unknown c) ∧
  namedCommandBytes.length = 17 ∧ namedCommandBytes.Nodup

/-- Words written out from the spec's encodings decode to the instructions they stand for, one or more of each format
(spec/30_encoding.md R75, R76, R79; the `rx_event` and codec formats are the spec's decisions D3 and D8, log 26 and
log 16). -/
def Obligations.SampleWordsDecode : Prop :=
  decode 0 (.rx 0b101000001#9) = .accOtherAppend 0b01000001#8 ∧
  decode 11 (.rx 0b101000110#9) = .accOtherDrop 0b01000110#8 ∧
  decode 3 (.rx 0b011111111#9) = .accIdle 0b11111111#8 ∧
  decode 0 (.cmd 0b01110011#8) = .start true ∧
  decode 0 (.cmd 0b00100000#8) = .unknown 0b00100000#8 ∧
  decode 0 (.codec 0b1100#4 { zeroOperands with inValue := 0x12345678#32 }) = .word32ToHex true 0x12345678#32 ∧
  decode 0 (.codec 0b0010#4 { zeroOperands with inValue := 0x00000005#32 }) = .alignUp false 0x00000005#32

/-! ## The step -/

/-- A step runs the decoded instruction. An offered word of a block that is not held: `exec` of its instruction, the
offer consumed. A codec request, held or not, behind offers that a held block passes over or not (log 2): `exec` of its
instruction. A command byte in the frame when a delimiter is
offered: `exec` of its instruction, then the clear of the frame, in the same step. No move at all: an idle poll. -/
def Obligations.StepRunsTheDecodedInstruction : Prop :=
  (∀ (s : State) (i : Instr) (e : RxWord) (rest : List Move), i.wellFormed = true → i.applies s.frameLen = true →
    encode i = .rx e → s.held = false → s.moves = .offer e :: rest → step s = exec i { s with moves := rest }) ∧
  (∀ (s : State) (h : CodecHeader) (ops : CodecOperands) (rest : List Move),
    takeMove s.held s.moves = some (.codec h ops, rest) → step s = exec (decodeCodec h ops) { s with moves := rest }) ∧
  (∀ (s : State) (i : Instr) (e : RxWord) (rest : List Move), i.wellFormed = true → encode i = .cmd s.frame[0] →
    e = 0x10A#9 ∨ e = 0x10D#9 → s.held = false → s.moves = .offer e :: rest →
    ∃ t, exec i { s with moves := rest } = .next t ∧
      step s = .next { t with frame := Vector.replicate 12 0x00#8, frameLen := 0 }) ∧
  (∀ s : State, s.held = false → s.moves = [] → step s = exec (.accIdle 0x00#8) s)

/-- Every step is taken, held or refused, and never faults (R200, R221): taken steps give a next state, a held one
changes nothing, and only a codec request with a reserved `FSEL` is refused. (That a read of ControlState, an answered
codec request and a reset are taken, in a held block too, is the model's choice, log 27.) -/
def Obligations.StepIsTakenHeldOrRefused : Prop :=
  ∀ s : State,
    (s.stepClass = .taken → ∃ s', step s = .next s') ∧
    (s.stepClass = .held → step s = .next s) ∧
    (∀ f, s.stepClass = .refused f → step s = .refused (.reservedCodecSelect f)) ∧
    (s.stepClass = .held ↔ s.held = true ∧ ∀ m ∈ s.moves, m.isOffer = true) ∧
    (∀ f, s.stepClass = .refused f ↔
      (f = 0b110#3 ∨ f = 0b111#3) ∧ ∃ h ops, s.nextMove = some (.codec h ops) ∧ codecFsel h = f)

/-- While held, the block takes no intake step (R31, R215): no offer is consumed, none is reordered, and, unless the
host resets it, the frame and the five registers stay as they are. -/
def Obligations.HeldBlockConsumesNoOffer : Prop :=
  ∀ (s s' : State), s.held = true → step s = .next s' →
    s'.moves.filter Move.isOffer = s.moves.filter Move.isOffer ∧
    (s.nextMove ≠ some .reset → s'.frame = s.frame ∧ s'.frameLen = s.frameLen ∧ s'.controlState = s.controlState)

/-- The hang of R206 and R236, at any length of run: a block that waits for a drain keeps its queue and its frame until
the host drains or resets, one that waits for statistics done keeps waiting until the host signals it or resets. (That a
held block's step answers the same state, and that the offers wait in the list, are the model's choices, log 3 and
log 2.) -/
def Obligations.HoldLastsUntilTheHostLiftsIt : Prop :=
  (∀ (n : Nat) (s t : State), s.txq ≠ [] → (∀ m ∈ s.moves, m ≠ .reset ∧ ∀ k, m ≠ .drain k) →
    Machine.run n s = .next t →
    t.txq = s.txq ∧ t.frame = s.frame ∧ t.frameLen = s.frameLen ∧ t.controlState = s.controlState ∧
      t.moves.filter Move.isOffer = s.moves.filter Move.isOffer) ∧
  (∀ (n : Nat) (s t : State), s.statsBusy = true → (∀ m ∈ s.moves, m ≠ .reset ∧ m ≠ .statsDone) →
    Machine.run n s = .next t →
    t.statsBusy = true ∧ t.frame = s.frame ∧ t.frameLen = s.frameLen ∧ t.controlState = s.controlState ∧
      t.moves.filter Move.isOffer = s.moves.filter Move.isOffer)

/-- Liveness under the host's duty (R243), each hold by the move that R216 or R217 gives the host: a drain of all that
waits lifts a hold by `TXQ`, statistics done lifts a hold by `STATS_BUSY`, in one step, behind offers or not (log 2). The
last clause takes both moves in a row from any state. At least one of its moves is no move of the host there in a state
that meets the invariants (an empty `TXQ`, `STATS_BUSY` = 0), and that such a move does nothing is the model's choice,
log 5. -/
def Obligations.DrainAndDoneLiftTheHold : Prop :=
  (∀ (s : State) (k : Nat) (rest : List Move), s.txq ≠ [] → s.statsBusy = false → s.txq.length ≤ k + 1 →
    takeMove s.held s.moves = some (.drain k, rest) →
    ∃ t, step s = .next t ∧ t.held = false ∧ t.moves = rest ∧ t.frame = s.frame ∧ t.frameLen = s.frameLen ∧
      t.controlState = s.controlState) ∧
  (∀ (s : State) (rest : List Move), s.txq = [] → s.statsBusy = true →
    takeMove s.held s.moves = some (.statsDone, rest) →
    ∃ t, step s = .next t ∧ t.held = false ∧ t.moves = rest ∧ t.frame = s.frame ∧ t.frameLen = s.frameLen ∧
      t.controlState = s.controlState) ∧
  (∀ (s : State) (k : Nat) (rest : List Move), s.txq.length ≤ k + 1 → s.moves = .drain k :: .statsDone :: rest →
    ∃ t, Machine.run 2 s = .next t ∧ t.held = false ∧ t.moves = rest ∧ t.frame = s.frame ∧
      t.frameLen = s.frameLen ∧ t.controlState = s.controlState)

/-- Which of the host's moves a step takes, and which stay (log 2): a block that is not held takes the first; a held one
passes over the offers in front, which stay in their order, and takes the first other move; there is none to take exactly
if the list is empty or a held block is left with offers only. -/
def Obligations.HeldBlockTakesTheFirstOtherMove : Prop :=
  (∀ (m : Move) (rest : List Move), takeMove false (m :: rest) = some (m, rest)) ∧
  (∀ (offers : List Move) (m : Move) (rest : List Move), (∀ x ∈ offers, x.isOffer = true) → m.isOffer = false →
    takeMove true (offers ++ m :: rest) = some (m, offers ++ rest)) ∧
  (∀ (held : Bool) (moves : List Move),
    takeMove held moves = none ↔ moves = [] ∨ held = true ∧ ∀ m ∈ moves, m.isOffer = true)

/-! ## The accumulator -/

/-- R151, R152, R156: an idle poll, a tab and a byte offered to a full frame are decoded as their rows, and change
nothing. (The 9-bit packing of the words is the spec's decision D3, log 26, and the decoder's split of the default row is
log 10. The two meanings of that row at the other's lengths: `AppendAndDropAtTheOthersLengths`.) -/
def Obligations.IdleTabAndDropChangeNothing : Prop :=
  (∀ (len : Fin 12) (e : RxWord), rxPresent e = false → decodeRx len e = .accIdle (rxByte e)) ∧
  (∀ len : Fin 12, decodeRx len 0x109#9 = .accTab) ∧
  (∀ (len : Fin 12) (b : Byte), b ∉ accumulatorBytes → len.val = 11 → decodeRx len (rxWord true b) = .accOtherDrop b) ∧
  (∀ (s : State) (b : Byte), exec (.accIdle b) s = .next s) ∧
  (∀ s : State, exec .accTab s = .next s) ∧
  (∀ (s : State) (b : Byte), s.frameLen.val = 11 → exec (.accOtherDrop b) s = .next s)

/-- What the two meanings of the default row do at the lengths where the decoder never gives them: nothing. No rule says
so; it is the model's choice, log 10. -/
def Obligations.AppendAndDropAtTheOthersLengths : Prop :=
  ∀ (s : State) (b : Byte),
    (s.frameLen.val = 11 → exec (.accOtherAppend b) s = .next s) ∧
    (s.frameLen.val ≤ 10 → exec (.accOtherDrop b) s = .next s)

/-- R155: the byte goes to slot `FRAME_LEN`, `FRAME_LEN` rises by one, every other slot and every other piece of state
stays. (The 9-bit packing of the word is the spec's decision D3, log 26, and the decoder's split of the default row is
log 10.) -/
def Obligations.AppendStoresTheByteAtFrameLen : Prop :=
  (∀ (len : Fin 12) (b : Byte), b ≠ 0x09#8 → b ≠ 0x0A#8 → b ≠ 0x0D#8 → len.val ≤ 10 →
    decodeRx len (rxWord true b) = .accOtherAppend b) ∧
  ∀ (s : State) (b : Byte), s.frameLen.val ≤ 10 →
    ∃ (f : Vector Byte 12) (n : Fin 12),
      exec (.accOtherAppend b) s = .next { s with frame := f, frameLen := n } ∧
      n.val = s.frameLen.val + 1 ∧ f[s.frameLen.val] = b ∧ ∀ i (h : i < 12), i ≠ s.frameLen.val → f[i] = s.frame[i]

/-- R153, R154, R158: a delimiter of either kind is decoded as its row whatever the frame holds, runs the command of
`FRAME[0]`, then zeroes all 12 slots and `FRAME_LEN`; nothing else changes. (The 9-bit packing of the words is the spec's
decision D3, log 26.) -/
def Obligations.DelimiterDispatchesThenClears : Prop :=
  (∀ len : Fin 12, decodeRx len 0x10D#9 = .accDelimCr) ∧
  (∀ len : Fin 12, decodeRx len 0x10A#9 = .accDelimLf) ∧
  ∀ s : State, ∃ t, exec (decodeCmd s.frame[0]) s = .next t ∧
    exec .accDelimCr s = .next { t with frame := Vector.replicate 12 0x00#8, frameLen := 0 } ∧
    exec .accDelimLf s = .next { t with frame := Vector.replicate 12 0x00#8, frameLen := 0 }

/-- R159: a delimiter on an empty, zeroed frame changes nothing and emits nothing. -/
def Obligations.EmptyLineChangesNothing : Prop :=
  ∀ s : State, s.frame = Vector.replicate 12 0x00#8 → s.frameLen = 0 →
    exec .accDelimCr s = .next s ∧ exec .accDelimLf s = .next s

/-- R161: starting from an empty frame, offering any poll answers without a delimiter, idle polls among them, leaves
the first 11 bytes among them that are no tab in the frame, zeroes after them, and nothing else changed. -/
def Obligations.FrameIsTheFirstElevenNonTabBytes : Prop :=
  ∀ (s : State) (events : List RxWord) (kept : List Byte) (rest : List Move),
    s.held = false → s.frame = Vector.replicate 12 0x00#8 → s.frameLen = 0 →
    (∀ e ∈ events, e ≠ 0x10A#9 ∧ e ≠ 0x10D#9) →
    kept = ((events.filter (fun e => rxPresent e && rxByte e != 0x09#8)).map rxByte).take 11 →
    s.moves = events.map .offer ++ rest →
    ∃ (f : Vector Byte 12) (n : Fin 12),
      Machine.run events.length s = .next { s with frame := f, frameLen := n, moves := rest } ∧
      n.val = kept.length ∧ ∀ i (h : i < 12), f[i] = kept.getD i 0x00#8

/-- The bytes 0x09, 0x0A and 0x0D never reach dispatch (R77): in a state that meets the invariants no step dispatches
NOP_LF, NOP_CR or UNKNOWN with a tab. -/
def Obligations.ControlCodesNeverReachDispatch : Prop :=
  ∀ s : State, s.Inv →
    s.nextCommand ≠ some .nopLf ∧ s.nextCommand ≠ some .nopCr ∧ s.nextCommand ≠ some (.unknown 0x09#8)

/-! ## The commands -/

/-- R171, with the whole frame of the command: only `readoutAddress` and `TXQ` change. (That the reply's digits are the
serializer's is the spec's decision D19, log 22.) -/
def Obligations.SetAddrStoresTheAlignedArgument : Prop :=
  (∀ c : Byte, c = 0x61#8 ∨ c = 0x41#8 ↔ c &&& 0xDF#8 = 0x41#8) ∧
  (∀ c : Byte, c &&& 0xDF#8 = 0x41#8 → decodeCmd c = .setAddr (caseBit c)) ∧
  ∀ (s : State) (lower : Bool) (a : Word),
    a = alignDown (parseHex32 [s.frame[1], s.frame[2], s.frame[3], s.frame[4], s.frame[5], s.frame[6], s.frame[7],
      s.frame[8], s.frame[9], s.frame[10]]).1 →
    exec (.setAddr lower) s = .next { s with
      readoutAddress := a
      txq := s.txq ++ (msgAddr ++ word32ToHexBytes a false ++ [0x0D#8, 0x0A#8]) }

/-- R172, with the whole frame of the command: only `readoutLen` and `TXQ` change. (`alignUp` near 2^32 is the spec's
decision D10, log 8, and that the reply's digits are the serializer's is its decision D19, log 22.) -/
def Obligations.SetLenStoresTheAlignedArgument : Prop :=
  (∀ c : Byte, c = 0x6C#8 ∨ c = 0x4C#8 ↔ c &&& 0xDF#8 = 0x4C#8) ∧
  (∀ c : Byte, c &&& 0xDF#8 = 0x4C#8 → decodeCmd c = .setLen (caseBit c)) ∧
  ∀ (s : State) (lower : Bool) (n : Word),
    n = alignUp (parseHex32 [s.frame[1], s.frame[2], s.frame[3], s.frame[4], s.frame[5], s.frame[6], s.frame[7],
      s.frame[8], s.frame[9], s.frame[10]]).1 →
    exec (.setLen lower) s = .next { s with
      readoutLen := n
      txq := s.txq ++ (msgLen ++ word32ToHexBytes n false ++ [0x0D#8, 0x0A#8]) }

/-- R173, R174: `b`/`B` writes 0 to `transmitHex`, `h`/`H` writes 1, each with its message and nothing else. -/
def Obligations.ModeCommandsWriteTransmitHex : Prop :=
  (∀ c : Byte, c = 0x62#8 ∨ c = 0x42#8 ↔ c &&& 0xDF#8 = 0x42#8) ∧
  (∀ c : Byte, c &&& 0xDF#8 = 0x42#8 → decodeCmd c = .modeBin (caseBit c)) ∧
  (∀ c : Byte, c = 0x68#8 ∨ c = 0x48#8 ↔ c &&& 0xDF#8 = 0x48#8) ∧
  (∀ c : Byte, c &&& 0xDF#8 = 0x48#8 → decodeCmd c = .modeHex (caseBit c)) ∧
  ∀ (s : State) (lower : Bool),
    exec (.modeBin lower) s = .next { s with transmitHex := false, txq := s.txq ++ msgBin } ∧
    exec (.modeHex lower) s = .next { s with transmitHex := true, txq := s.txq ++ msgHex }

/-- R175, R176: `e` writes 1 to `transmitLittleEndian`, `E` writes 0, each with its message and nothing else. -/
def Obligations.EndianCommandsWriteTransmitLittleEndian : Prop :=
  decodeCmd 0x65#8 = .endianLittle ∧ decodeCmd 0x45#8 = .endianBig ∧
  ∀ s : State,
    exec .endianLittle s = .next { s with transmitLittleEndian := true, txq := s.txq ++ msgLe } ∧
    exec .endianBig s = .next { s with transmitLittleEndian := false, txq := s.txq ++ msgBe }

/-- R177: `s`/`S` sets `active` and emits its message, whatever the window registers hold, and changes nothing else. -/
def Obligations.StartSetsActive : Prop :=
  (∀ c : Byte, c = 0x73#8 ∨ c = 0x53#8 ↔ c &&& 0xDF#8 = 0x53#8) ∧
  (∀ c : Byte, c &&& 0xDF#8 = 0x53#8 → decodeCmd c = .start (caseBit c)) ∧
  ∀ (s : State) (lower : Bool), exec (.start lower) s = .next { s with active := true, txq := s.txq ++ msgStart }

/-- R178, R217: `p`/`P` sets `STATS_BUSY`, records one `StatsRequest`, emits nothing, changes nothing else, and the block
is held from then on. (Where the output history stands is the model's choice, log 6.) -/
def Obligations.StatsRequestsAndHolds : Prop :=
  (∀ c : Byte, c = 0x70#8 ∨ c = 0x50#8 ↔ c &&& 0xDF#8 = 0x50#8) ∧
  (∀ c : Byte, c &&& 0xDF#8 = 0x50#8 → decodeCmd c = .stats (caseBit c)) ∧
  ∀ (s : State) (lower : Bool), ∃ t,
    exec (.stats lower) s = .next t ∧ t = { s with statsBusy := true, history := s.history ++ [.statsRequest] } ∧
    t.held = true

/-- R179 and the two rows of R180: a leading 0x00 (an empty frame's among them), 0x0A or 0x0D decodes to its row and does
nothing. -/
def Obligations.NopCommandsChangeNothing : Prop :=
  decodeCmd 0x00#8 = .nopEmpty ∧ decodeCmd 0x0A#8 = .nopLf ∧ decodeCmd 0x0D#8 = .nopCr ∧
  (∀ s : State, s.Inv → s.frameLen.val = 0 → decodeCmd s.frame[0] = .nopEmpty) ∧
  ∀ s : State, exec .nopEmpty s = .next s ∧ exec .nopLf s = .next s ∧ exec .nopCr s = .next s

/-- R181: every byte without a row is UNKNOWN, 239 values of which 238 are reachable. 0x09 is no frame's leading byte in a
state that meets the invariants; each other one is dispatched in the step after it has been offered to the block right
after reset. UNKNOWN emits the error line and leaves all other state unchanged. (That 0x09 is no leading byte is R77, which
the spec marks derived; the offers stand in the list of moves, log 1, as words of the spec's decision D3, log 26.) -/
def Obligations.UnknownCommandEmitsTheErrorLine : Prop :=
  (∀ c : Byte, decodeCmd c = .unknown c ↔ c ∉ namedCommandBytes) ∧
  (List.range 256).countP (fun n => decide (decodeCmd (BitVec.ofNat 8 n) = .unknown (BitVec.ofNat 8 n))) = 239 ∧
  (List.range 256).countP (fun n => decide (n ≠ 0x09 ∧
    decodeCmd (BitVec.ofNat 8 n) = .unknown (BitVec.ofNat 8 n))) = 238 ∧
  (∀ s : State, s.Inv → s.frame[0] ≠ 0x09#8) ∧
  (∀ c : Byte, c ∉ namedCommandBytes → c ≠ 0x09#8 → ∃ s : State,
    Machine.run 1 { State.reset with moves := [.offer (rxWord true c), .offer 0x10D#9] } = .next s ∧ s.Inv ∧
    s.nextCommand = some (.unknown c)) ∧
  ∀ (s : State) (c : Byte), exec (.unknown c) s = .next { s with txq := s.txq ++ msgErr }

/-- R183: the feedback strings are the ASCII codes of the table's text with its lengths, and no dispatch emits more than
34 bytes. -/
def Obligations.FeedbackStringsAreThoseOfTheTable : Prop :=
  let ascii : List Char → List Byte := List.map (fun ch => BitVec.ofNat 8 ch.toNat)
  msgAddr = ascii ['S','t','a','r','t',' ','a','d','d','r','e','s','s',' ','s','e','t',' ','t','o',' ','0','x'] ∧
  msgLen = ascii ['R','e','a','d','o','u','t',' ','l','e','n','g','t','h',' ','s','e','t',' ','t','o',' ','0','x'] ∧
  msgBin = ascii ['B','i','n','a','r','y',' ','o','u','t','p','u','t',' ','m','o','d','e',' ','s','e','l','e','c',
    't','e','d','\r','\n'] ∧
  msgHex = ascii ['H','e','x',' ','o','u','t','p','u','t',' ','m','o','d','e',' ','s','e','l','e','c','t','e','d',
    '\r','\n'] ∧
  msgLe = ascii ['L','i','t','t','l','e',' ','E','n','d','i','a','n',' ','m','o','d','e',' ','e','n','a','b','l','e',
    'd','\r','\n'] ∧
  msgBe = ascii ['B','i','g',' ','E','n','d','i','a','n',' ','m','o','d','e',' ','e','n','a','b','l','e','d',
    '\r','\n'] ∧
  msgStart = ascii ['F','l','a','s','h',' ','r','e','a','d','o','u','t',' ','s','t','a','r','t','e','d','!',
    '\r','\n'] ∧
  msgErr = ascii ['E','R','R','O','R',':',' ','u','n','k','n','o','w','n',' ','c','o','m','m','a','n','d',
    '\r','\n'] ∧
  msgAddr.length = 23 ∧ msgLen.length = 24 ∧ msgBin.length = 29 ∧ msgHex.length = 26 ∧ msgLe.length = 28 ∧
  msgBe.length = 25 ∧ msgStart.length = 24 ∧ msgErr.length = 24 ∧
  (∀ v : Word, (msgAddr ++ word32ToHexBytes v false ++ crlf).length = 33 ∧
    (msgLen ++ word32ToHexBytes v false ++ crlf).length = 34) ∧
  (∀ s : State, ∃ out, (dispatch s).txq = s.txq ++ out ∧ out.length ≤ 34)

/-- R55: the text of a stored value is big-endian hex whatever `transmitHex` and `transmitLittleEndian` hold. (That its
digits are those of `word32ToHexBytes`, with the one LUT and the one `HEX_UPPER`, is R182's reading, the spec's decision
D19, log 22.) -/
def Obligations.FeedbackTextIsAlwaysBigEndianHex : Prop :=
  ∀ (s : State) (lower hex little : Bool),
    (∃ t, exec (.setAddr lower) { s with transmitHex := hex, transmitLittleEndian := little } = .next t ∧
      t.txq = s.txq ++ (msgAddr ++ word32ToHexBytes t.readoutAddress false ++ crlf)) ∧
    (∃ t, exec (.setLen lower) { s with transmitHex := hex, transmitLittleEndian := little } = .next t ∧
      t.txq = s.txq ++ (msgLen ++ word32ToHexBytes t.readoutLen false ++ crlf))

/-- R185: for every command but SET_ADDR and SET_LEN, the frame's contents beyond slot 0, and its length, have no
effect on what a delimiter does. -/
def Obligations.ArgumentsOfOtherCommandsHaveNoEffect : Prop :=
  ∀ (s : State) (f : Vector Byte 12) (n : Fin 12), f[0] = s.frame[0] →
    (∀ lower, decodeCmd s.frame[0] ≠ .setAddr lower ∧ decodeCmd s.frame[0] ≠ .setLen lower) →
    exec .accDelimCr { s with frame := f, frameLen := n } = exec .accDelimCr s ∧
    exec .accDelimLf { s with frame := f, frameLen := n } = exec .accDelimLf s

/-- The whole path of a numeric command (S1, S2; R161, R103, R171, R172): from a block that waits with an empty frame,
the line of the letter, at most ten hex digits, each in either case, and a delimiter stores the aligned value in its
register and replies with the stored value. (`alignUp` near 2^32 is the spec's decision D10, log 8; that the reply's
digits are the serializer's is its decision D19, log 22.) -/
def Obligations.NumericLineStoresItsValue : Prop :=
  ∀ (s : State) (letter delimiter : Byte) (text : List Byte) (digits : List Nibble) (v : Word) (rest : List Move),
    s.held = false → s.frame = Vector.replicate 12 0x00#8 → s.frameLen = 0 →
    text.map hexDigitValue = digits.map some → text.length ≤ 10 →
    v = BitVec.ofNat 32 (digits.foldl (fun a d => a * 16 + d.toNat) 0) →
    delimiter = 0x0A#8 ∨ delimiter = 0x0D#8 →
    s.moves = (letter :: text ++ [delimiter]).map (fun b => .offer (rxWord true b)) ++ rest →
    (letter = 0x41#8 ∨ letter = 0x61#8 →
      Machine.run (text.length + 2) s = .next { s with
        readoutAddress := alignDown v
        txq := msgAddr ++ word32ToHexBytes (alignDown v) false ++ crlf
        moves := rest }) ∧
    (letter = 0x4C#8 ∨ letter = 0x6C#8 →
      Machine.run (text.length + 2) s = .next { s with
        readoutLen := alignUp v
        txq := msgLen ++ word32ToHexBytes (alignUp v) false ++ crlf
        moves := rest })

/-! ## The codec -/

/-- R100: the 22 hex digits of ASCII and their values; every other byte is none. -/
def Obligations.HexDigitValueIsThatOfAscii : Prop :=
  (∀ b : Byte, 0x30 ≤ b.toNat → b.toNat ≤ 0x39 → hexDigitValue b = some (BitVec.ofNat 4 (b.toNat - 0x30))) ∧
  (∀ b : Byte, 0x61 ≤ b.toNat → b.toNat ≤ 0x66 → hexDigitValue b = some (BitVec.ofNat 4 (b.toNat - 0x61 + 10))) ∧
  (∀ b : Byte, 0x41 ≤ b.toNat → b.toNat ≤ 0x46 → hexDigitValue b = some (BitVec.ofNat 4 (b.toNat - 0x41 + 10))) ∧
  (∀ b : Byte, ¬(0x30 ≤ b.toNat ∧ b.toNat ≤ 0x39) → ¬(0x61 ≤ b.toNat ∧ b.toNat ≤ 0x66) →
    ¬(0x41 ≤ b.toNat ∧ b.toNat ≤ 0x46) → hexDigitValue b = none)

/-- R103, R105, R106: the longest prefix of at most 10 hex digits, read in base 16 modulo 2^32, and the number of its
digits. `text` is that prefix: its bytes have the digit values `digits`, and what follows it is not read because ten
digits were taken, the input ends, or the next byte is no hex digit. (That the count is of the digits is R107, the spec's
decision D12, log 21.) And R102: the request with `FSEL` 000 is PARSEHEX32 of `IN_BYTES`, whatever its other operands (the
spec's decision D8, log 16). -/
def Obligations.ParseIsBaseSixteenOfTheLongestPrefix : Prop :=
  (∀ (h : CodecHeader) (ops : CodecOperands), codecFsel h = 0b000#3 →
    decodeCodec h ops = .parseHex32 (codecLe h) ops.inBytes) ∧
  ∀ (text rest : List Byte) (digits : List Nibble),
    text.map hexDigitValue = digits.map some → text.length ≤ 10 →
    (text.length = 10 ∨ rest = [] ∨ ∃ b bs, rest = b :: bs ∧ hexDigitValue b = none) →
    (parseHex32 (text ++ rest)).1 = BitVec.ofNat 32 (digits.foldl (fun a d => a * 16 + d.toNat) 0) ∧
    (parseHex32 (text ++ rest)).2 = text.length

/-- R110, R111: the request with `FSEL` 001 is ALIGNDOWN of `IN_VALUE`, and `alignDown` is the greatest multiple of 4 at
or below its operand. (The codec request's encoding is the spec's decision D8, log 16.) -/
def Obligations.AlignDownIsTheMultipleOfFourBelow : Prop :=
  (∀ (h : CodecHeader) (ops : CodecOperands), codecFsel h = 0b001#3 →
    decodeCodec h ops = .alignDown (codecLe h) ops.inValue) ∧
  ∀ v : Word,
    (alignDown v).toNat = v.toNat - v.toNat % 4 ∧ (alignDown v).toNat % 4 = 0 ∧ (alignDown v).toNat ≤ v.toNat ∧
    v.toNat - (alignDown v).toNat ≤ 3 ∧ alignDown (alignDown v) = alignDown v ∧
    ∀ m : Nat, m % 4 = 0 → m ≤ v.toNat → m ≤ (alignDown v).toNat

/-- R112 to R114: the request with `FSEL` 010 is ALIGNUP of `IN_VALUE`, whatever its other operands (the spec's decision
D8, log 16); `alignUp` is the least multiple of 4 at or above its operand up to 0xFFFFFFFC, and 0 above it (the wrap is
its decision D10, log 8). -/
def Obligations.AlignUpIsTheMultipleOfFourAbove : Prop :=
  (∀ (h : CodecHeader) (ops : CodecOperands), codecFsel h = 0b010#3 →
    decodeCodec h ops = .alignUp (codecLe h) ops.inValue) ∧
  ∀ v : Word,
    (alignUp v).toNat % 4 = 0 ∧ alignUp (alignUp v) = alignUp v ∧ (alignUp v = alignDown v ↔ v.toNat % 4 = 0) ∧
    (v.toNat ≤ 0xFFFFFFFC → v.toNat ≤ (alignUp v).toNat ∧ (alignUp v).toNat - v.toNat ≤ 3 ∧
      ∀ m : Nat, m % 4 = 0 → v.toNat ≤ m → (alignUp v).toNat ≤ m) ∧
    (0xFFFFFFFD ≤ v.toNat → alignUp v = 0x00000000#32)

/-- R130: the HexDigitTable, for either value of the OPEN parameter `HEX_UPPER`. -/
def Obligations.HexTableIsAscii : Prop :=
  (∀ n : Nibble, n.toNat ≤ 9 → (hexLut n).toNat = 0x30 + n.toNat) ∧
  (∀ n : Nibble, 10 ≤ n.toNat →
    (hexLut n).toNat = (if Config.hexUpper then 0x41 else 0x61) + (n.toNat - 10))

/-- R133, R134, R136, R138: the request with `FSEL` 101 is WORD32TORAW of `IN_VALUE` in the order of `LE`; the bytes
of a word by significance, most significant first for big-endian, least significant first for little-endian; and the
text of a word takes its bytes in the same order, the two digits of each byte always in theirs. (The codec request's
encoding is the spec's decision D8, log 16; the last clause is R138, which the spec marks derived.) -/
def Obligations.RawBytesAreTheWordInByteOrder : Prop :=
  (∀ (h : CodecHeader) (ops : CodecOperands), codecFsel h = 0b101#3 →
    decodeCodec h ops = .word32ToRaw (codecLe h) ops.inValue) ∧
  ∀ v : Word,
    (word32ToRawBytes v false).map BitVec.toNat =
      [v.toNat / 2 ^ 24, v.toNat / 2 ^ 16 % 256, v.toNat / 2 ^ 8 % 256, v.toNat % 256] ∧
    (word32ToRawBytes v true).map BitVec.toNat =
      [v.toNat % 256, v.toNat / 2 ^ 8 % 256, v.toNat / 2 ^ 16 % 256, v.toNat / 2 ^ 24] ∧
    ∀ le : Bool, word32ToHexBytes v le = (word32ToRawBytes v le).flatMap byteToHex

/-- R132, R134, R135: the requests with `FSEL` 011 and 100 are BYTETOHEX of `IN_BYTE` and WORD32TOHEX of `IN_VALUE` in the
order of `LE`; a byte is its high nibble's character, then its low nibble's; a word is its bytes so expanded in the
byte order, 8 characters always. (The codec request's encoding is the spec's decision D8, log 16.) -/
def Obligations.HexTextIsTheNibblesInOrder : Prop :=
  (∀ (h : CodecHeader) (ops : CodecOperands), codecFsel h = 0b011#3 →
    decodeCodec h ops = .byteToHex (codecLe h) ops.inByte) ∧
  (∀ (h : CodecHeader) (ops : CodecOperands), codecFsel h = 0b100#3 →
    decodeCodec h ops = .word32ToHex (codecLe h) ops.inValue) ∧
  (∀ b : Byte, byteToHex b = [hexLut (BitVec.ofNat 4 (b.toNat / 16)), hexLut (BitVec.ofNat 4 (b.toNat % 16))]) ∧
  (∀ (v : Word) (le : Bool) (b0 b1 b2 b3 : Byte),
    b3.toNat = v.toNat / 2 ^ 24 → b2.toNat = v.toNat / 2 ^ 16 % 256 → b1.toNat = v.toNat / 2 ^ 8 % 256 →
    b0.toNat = v.toNat % 256 →
    word32ToHexBytes v le =
      (if le then byteToHex b0 ++ byteToHex b1 ++ byteToHex b2 ++ byteToHex b3
       else byteToHex b3 ++ byteToHex b2 ++ byteToHex b1 ++ byteToHex b0) ∧
    (word32ToHexBytes v le).length = 8)

/-- R137: parsing the big-endian text of a word gives the word, parsing its little-endian text gives its bytes reversed,
eight digits each, for either value of `HEX_UPPER`. -/
def Obligations.ParsingTheHexTextGivesTheWordBack : Prop :=
  ∀ v : Word,
    parseHex32 (word32ToHexBytes v false) = (v, 8) ∧
    (parseHex32 (word32ToHexBytes v true)).1.toNat =
      v.toNat % 256 * 2 ^ 24 + v.toNat / 2 ^ 8 % 256 * 2 ^ 16 + v.toNat / 2 ^ 16 % 256 * 2 ^ 8 + v.toNat / 2 ^ 24 ∧
    (parseHex32 (word32ToHexBytes v true)).2 = 8

/-- Every codec function of the port answers, in every state, whatever its `LE` bit where the function ignores it, and
changes nothing of the block (R79, R74, R219; that the response is recorded as an event is the model's choice, log 6 and
log 16). -/
def Obligations.CodecRequestsAnswerAndChangeNothing : Prop :=
  ∀ (s : State) (le : Bool),
    (∀ bs : Vector Byte 10, exec (.parseHex32 le bs) s = .next { s with history := s.history ++
      [.codecResponse ⟨(parseHex32 bs.toList).1, (parseHex32 bs.toList).2, []⟩] } ∧ (parseHex32 bs.toList).2 ≤ 10) ∧
    (∀ v : Word, exec (.alignDown le v) s = .next { s with history := s.history ++
      [.codecResponse ⟨alignDown v, 0, []⟩] }) ∧
    (∀ v : Word, exec (.alignUp le v) s = .next { s with history := s.history ++
      [.codecResponse ⟨alignUp v, 0, []⟩] }) ∧
    (∀ b : Byte, exec (.byteToHex le b) s = .next { s with history := s.history ++
      [.codecResponse ⟨0#32, 0, byteToHex b⟩] }) ∧
    (∀ v : Word, exec (.word32ToHex le v) s = .next { s with history := s.history ++
      [.codecResponse ⟨0#32, 0, word32ToHexBytes v le⟩] }) ∧
    (∀ v : Word, exec (.word32ToRaw le v) s = .next { s with history := s.history ++
      [.codecResponse ⟨0#32, 0, word32ToRawBytes v le⟩] })

/-- R80, the spec's decision D8: a request with `FSEL` 110 or 111 is refused, with no result, in every state (that the
refusal is the step's outcome is the model's reading, log 17). The block issues none itself: a delimiter of either kind
always completes, and so does every step that takes no request of the host's. -/
def Obligations.ReservedCodecRequestsAreRefused : Prop :=
  (∀ (h : CodecHeader) (ops : CodecOperands), codecFsel h = 0b110#3 →
    decodeCodec h ops = .reservedFsel6 (codecLe h)) ∧
  (∀ (h : CodecHeader) (ops : CodecOperands), codecFsel h = 0b111#3 →
    decodeCodec h ops = .reservedFsel7 (codecLe h)) ∧
  (∀ (s : State) (le : Bool),
    exec (.reservedFsel6 le) s = .refused (.reservedCodecSelect 0b110#3) ∧
    exec (.reservedFsel7 le) s = .refused (.reservedCodecSelect 0b111#3)) ∧
  (∀ s : State, (∃ t, exec .accDelimCr s = .next t) ∧ ∃ t, exec .accDelimLf s = .next t) ∧
  (∀ s : State, (∀ h ops, s.nextMove ≠ some (.codec h ops)) → ∃ t, step s = .next t)

/-! ## The host's side -/

/-- R216: a drain takes a non-empty prefix off `TXQ`, the host receives it unchanged and in order, and nothing else
changes, behind offers or not (log 2). With nothing to accept there is no such move, and the model's does nothing
(log 5). -/
def Obligations.DrainTakesAPrefixOfTheQueue : Prop :=
  ∀ (s : State) (k : Nat) (rest : List Move), takeMove s.held s.moves = some (.drain k, rest) →
    (s.txq ≠ [] → ∃ taken left, taken ≠ [] ∧ s.txq = taken ++ left ∧ taken.length = min (k + 1) s.txq.length ∧
      step s = .next { s with txq := left, history := s.history ++ [.accepted taken], moves := rest }) ∧
    (s.txq = [] → step s = .next { s with moves := rest })

/-- R217, R218: statistics done clears `STATS_BUSY` and nothing else; a read returns the five registers, at any time,
with no side effect on the block; each behind offers that a held block passes over or not (log 2). Statistics done while
`STATS_BUSY` = 0 is no move of the host by R217, and that it changes nothing is the model's choice, log 5; where the read
is recorded is log 6. -/
def Obligations.DoneAndReadMovesAct : Prop :=
  (∀ (s : State) (rest : List Move), takeMove s.held s.moves = some (.statsDone, rest) →
    step s = .next { s with statsBusy := false, moves := rest }) ∧
  (∀ (s : State) (rest : List Move), takeMove s.held s.moves = some (.readControl, rest) →
    step s = .next { s with
      history := s.history ++ [.controlRead
        ⟨s.active, s.transmitHex, s.transmitLittleEndian, s.readoutAddress, s.readoutLen⟩]
      moves := rest })

/-- The feedback stream, accepted bytes then waiting ones, in every step that is no reset: a step that dispatches a
command appends exactly what that command emits, every other step leaves the stream as it is; no byte is lost, altered
or reordered (R30, R62, R216). -/
def Obligations.FeedbackStreamGrowsOnlyByReplies : Prop :=
  ∀ (s s' : State), step s = .next s' → s.nextMove ≠ some .reset →
    (s.nextCommand = none → s'.feedback = s.feedback) ∧
    (∀ i t, s.nextCommand = some i → exec i s = .next t →
      s'.feedback = t.feedback ∧ ∃ out, t.feedback = s.feedback ++ out ∧ out.length ≤ 34)
end

