-- ==== Sys2Proof/Laws/Codec.lean ====
section
/-! SUPPORT. The codec functions by their arithmetic: the scan as a base-16 reading, alignment as division by 4, the
serializer's lengths, and that the parser reads back what the serializer writes. -/

namespace Sys2Proof.Machine

/-! ## Digits -/

/-- The parser reads back every LUT character, in either letter case. -/
theorem hexDigitValue_hexLut (n : Nibble) : hexDigitValue (hexLut n) = some n := by
  have upper : ∀ n : Nibble, hexDigitValue
      (if n ≤ 9#4 then 0x30#8 + n.setWidth 8 else 0x41#8 + (n.setWidth 8 - 10#8)) = some n := by decide
  have lower : ∀ n : Nibble, hexDigitValue
      (if n ≤ 9#4 then 0x30#8 + n.setWidth 8 else 0x61#8 + (n.setWidth 8 - 10#8)) = some n := by decide
  unfold hexLut
  cases Config.hexUpper
  · exact lower n
  · exact upper n

theorem hexLut_not_accumulatorBytes (n : Nibble) : hexLut n ∉ accumulatorBytes := by
  intro h
  have hv := hexDigitValue_hexLut n
  have : ∀ b ∈ accumulatorBytes, hexDigitValue b = none := by decide
  rw [this _ h] at hv
  cases hv

/-- One accepted digit multiplies by 16 and adds, modulo 2^32 (spec/40_codec_parse.md R105). -/
theorem pushDigit_toNat (acc : Word) (d : Nibble) :
    (pushDigit acc d).toNat = (acc.toNat * 16 + d.toNat) % 2 ^ 32 := by
  have hd := d.isLt
  have hor : acc <<< 4 ||| d.setWidth 32 = acc <<< 4 + d.setWidth 32 := by
    refine (BitVec.add_eq_or_of_and_eq_zero _ _ ?_).symm
    ext i hi
    simp only [BitVec.getElem_and, BitVec.getElem_shiftLeft, BitVec.getElem_setWidth, BitVec.getElem_zero]
    by_cases h4 : i < 4
    · simp [h4]
    · simp [BitVec.getLsbD_of_ge d i (by omega)]
  rw [pushDigit, hor, BitVec.toNat_add, BitVec.toNat_shiftLeft, BitVec.toNat_setWidth, Nat.shiftLeft_eq]
  omega

theorem pushDigit_ofNat (a : Nat) (d : Nibble) :
    pushDigit (BitVec.ofNat 32 a) d = BitVec.ofNat 32 (a * 16 + d.toNat) := by
  apply BitVec.eq_of_toNat_eq
  rw [pushDigit_toNat, BitVec.toNat_ofNat, BitVec.toNat_ofNat]
  omega

/-! ## The scan -/

/-- The scan consumes a prefix of hex digits, pushing each. -/
theorem scanHex_digits (text : List Byte) (rest : List Byte) (digits : List Nibble) (fuel : Nat) (acc : Word) (n : Nat)
    (hd : text.map hexDigitValue = digits.map some) :
    scanHex (text.length + fuel) (text ++ rest) acc n =
      scanHex fuel rest (digits.foldl pushDigit acc) (n + text.length) := by
  induction text generalizing digits acc n with
  | nil => cases digits with
    | nil => simp
    | cons d ds => cases hd
  | cons b bs ih => cases digits with
    | nil => cases hd
    | cons d ds =>
      obtain ⟨hb, hbs⟩ := List.cons.inj hd
      have hlen : (b :: bs).length + fuel = (bs.length + fuel) + 1 := by simp only [List.length_cons]; omega
      rw [hlen, List.cons_append, scanHex, hb]
      simp only [List.foldl_cons]
      rw [ih ds (pushDigit acc d) (n + 1) hbs]
      simp only [List.length_cons]
      congr 1
      omega

/-- The scan stops at once with no fuel, at the end of input, or at a byte that is no hex digit. -/
theorem scanHex_stop (fuel : Nat) (rest : List Byte) (acc : Word) (n : Nat)
    (h : fuel = 0 ∨ rest = [] ∨ ∃ b bs, rest = b :: bs ∧ hexDigitValue b = none) :
    scanHex fuel rest acc n = (acc, n) := by
  obtain rfl | rfl | ⟨b, bs, rfl, hb⟩ := h
  · rfl
  · cases fuel <;> rfl
  · cases fuel with
    | zero => rfl
    | succ k => rw [scanHex, hb]

theorem foldl_pushDigit_ofNat (digits : List Nibble) (a : Nat) :
    digits.foldl pushDigit (BitVec.ofNat 32 a) =
      BitVec.ofNat 32 (digits.foldl (fun a d => a * 16 + d.toNat) a) := by
  induction digits generalizing a with
  | nil => rfl
  | cons d ds ih => rw [List.foldl_cons, pushDigit_ofNat, ih, List.foldl_cons]

/-- `parseHex32` on a prefix of at most ten digits after which the scan stops. -/
theorem parseHex32_prefix (text rest : List Byte) (digits : List Nibble)
    (hd : text.map hexDigitValue = digits.map some) (hlen : text.length ≤ 10)
    (hstop : text.length = 10 ∨ rest = [] ∨ ∃ b bs, rest = b :: bs ∧ hexDigitValue b = none) :
    parseHex32 (text ++ rest) = (digits.foldl pushDigit 0#32, text.length) := by
  have h10 : Config.parseScanLimit = text.length + (10 - text.length) := by simp only [Config.parseScanLimit]; omega
  rw [parseHex32, h10, scanHex_digits text rest digits _ _ _ hd, scanHex_stop]
  · simp
  · exact hstop.imp_left (by omega)

/-- The scan counts at most its fuel. -/
theorem scanHex_count_le (fuel : Nat) (bs : List Byte) (acc : Word) (n : Nat) :
    (scanHex fuel bs acc n).2 ≤ n + fuel := by
  induction fuel generalizing bs acc n with
  | zero => exact Nat.le_refl n
  | succ k ih => cases bs with
    | nil => exact Nat.le_add_right n _
    | cons b bs =>
      rw [scanHex]
      cases hexDigitValue b with
      | none => exact Nat.le_add_right n _
      | some d => exact Nat.le_trans (ih bs _ _) (by omega)

theorem parseHex32_count_le (bs : List Byte) : (parseHex32 bs).2 ≤ 10 := by
  simpa [parseHex32, Config.parseScanLimit] using scanHex_count_le 10 bs 0#32 0

/-! ## Alignment -/

theorem mask_getLsbD : ∀ j : Fin 32, (0xFFFFFFFC#32).getLsbD j.val = decide (2 ≤ j.val) := by decide

theorem and_mask_toNat (v : Word) : (v &&& 0xFFFFFFFC#32).toNat = v.toNat - v.toNat % 4 := by
  have h : v &&& 0xFFFFFFFC#32 = (v >>> 2) <<< 2 := by
    apply BitVec.eq_of_getLsbD_eq
    intro i hi
    rw [BitVec.getLsbD_and, mask_getLsbD ⟨i, hi⟩, BitVec.getLsbD_shiftLeft, BitVec.getLsbD_ushiftRight]
    by_cases h2 : i < 2
    · simp [h2]
    · have h2' : 2 ≤ i := by omega
      simp [h2, h2', hi, show 2 + (i - 2) = i by omega]
  rw [h, BitVec.toNat_shiftLeft, BitVec.toNat_ushiftRight, Nat.shiftLeft_eq, Nat.shiftRight_eq_div_pow]
  have := v.isLt
  omega

/-- `alignDown` by its value (R110). -/
theorem alignDown_toNat (v : Word) : (alignDown v).toNat = v.toNat - v.toNat % 4 := and_mask_toNat v

/-- `alignUp` by its value, below the overflow band (R112). -/
theorem alignUp_toNat (v : Word) (h : v.toNat ≤ 0xFFFFFFFC) : (alignUp v).toNat = (v.toNat + 3) / 4 * 4 := by
  rw [alignUp, Config.alignUpOverflow, alignUpWith, and_mask_toNat, BitVec.toNat_add]
  simp only [BitVec.toNat_ofNat]
  omega

/-- `alignUp` in the overflow band, as decided (R113, D10). -/
theorem alignUp_wraps (v : Word) (h : 0xFFFFFFFD ≤ v.toNat) : alignUp v = 0#32 := by
  apply BitVec.eq_of_toNat_eq
  rw [alignUp, Config.alignUpOverflow, alignUpWith, and_mask_toNat, BitVec.toNat_add]
  simp only [BitVec.toNat_ofNat]
  have := v.isLt
  omega

theorem alignDown_mod_four (v : Word) : (alignDown v).toNat % 4 = 0 := by
  rw [alignDown_toNat]; omega

theorem alignUp_mod_four (v : Word) : (alignUp v).toNat % 4 = 0 := by
  rw [alignUp, Config.alignUpOverflow, alignUpWith, and_mask_toNat]; omega

/-! ## The serializer -/

@[simp] theorem byteToHex_length (b : Byte) : (byteToHex b).length = 2 := rfl

@[simp] theorem wordBytes_length (v : Word) (le : Bool) : (wordBytes v le).length = 4 := by cases le <;> rfl

@[simp] theorem word32ToHexBytes_length (v : Word) (le : Bool) : (word32ToHexBytes v le).length = 8 := by
  cases le <;> rfl

/-- The nibbles of a word's hex text, in the order of the text. -/
def wordNibbles (v : Word) (le : Bool) : List Nibble :=
  (wordBytes v le).flatMap (fun b => [b.extractLsb' 4 4, b.extractLsb' 0 4])

/-- The hex text of a word is the LUT characters of its nibbles. -/
theorem word32ToHexBytes_eq_map (v : Word) (le : Bool) : word32ToHexBytes v le = (wordNibbles v le).map hexLut := by
  cases le <;> rfl

/-- Parsing the hex text of a word pushes its nibbles, eight of them. -/
theorem parseHex32_word32ToHexBytes (v : Word) (le : Bool) :
    parseHex32 (word32ToHexBytes v le) = ((wordNibbles v le).foldl pushDigit 0#32, 8) := by
  have hd : (word32ToHexBytes v le).map hexDigitValue = (wordNibbles v le).map some := by
    rw [word32ToHexBytes_eq_map, List.map_map]
    exact List.map_congr_left fun n _ => hexDigitValue_hexLut n
  have h := parseHex32_prefix (word32ToHexBytes v le) [] (wordNibbles v le) hd (by simp) (.inr (.inl rfl))
  simpa using h

end Sys2Proof.Machine
end

