-- ==== Sys2Proof/Laws/Decode.lean ====
section
/-! SUPPORT. What the decoders and the field functions do, once: facts about single words are checked over all of
them, everything else cites these. -/

namespace Sys2Proof

/-! ## Fields of an `rx_event` and of a codec header -/

@[simp] theorem rxByte_rxWord (v : Bool) (b : Byte) : rxByte (rxWord v b) = b := by
  cases v <;> (revert b; decide)

@[simp] theorem rxPresent_rxWord (v : Bool) (b : Byte) : rxPresent (rxWord v b) = v := by
  cases v <;> (revert b; decide)

set_option maxRecDepth 8000 in
theorem rxWord_fields : ∀ e : RxWord, rxWord (rxPresent e) (rxByte e) = e := by decide

/-- Every `rx_event` is `{0, b}` or `{1, b}`. -/
theorem rxWord_cases (e : RxWord) : ∃ b, e = rxWord false b ∨ e = rxWord true b := by
  refine ⟨rxByte e, ?_⟩
  have h := rxWord_fields e
  cases hv : rxPresent e <;> rw [hv] at h
  · exact .inl h.symm
  · exact .inr h.symm

@[simp] theorem codecFsel_codecHeader : ∀ (le : Bool) (f : BitVec 3), codecFsel (codecHeader le f) = f := by decide

@[simp] theorem codecLe_codecHeader : ∀ (le : Bool) (f : BitVec 3), codecLe (codecHeader le f) = le := by decide

theorem codecHeader_fields : ∀ h : CodecHeader, codecHeader (codecLe h) (codecFsel h) = h := by decide

/-! ## The `rx_event` decoder -/

/-- `V` = 0 is ACC_IDLE, whatever `B` is. -/
@[simp] theorem decodeRx_idle (len : Fin 12) (b : Byte) : decodeRx len (rxWord false b) = .accIdle b := by
  have h : rxWord false b &&& 0x100#9 = 0x000#9 := by revert b; decide
  simp [decodeRx, h]

@[simp] theorem decodeRx_tab (len : Fin 12) : decodeRx len 0x109#9 = .accTab := by simp [decodeRx]

@[simp] theorem decodeRx_lf (len : Fin 12) : decodeRx len 0x10A#9 = .accDelimLf := by simp [decodeRx]

@[simp] theorem decodeRx_cr (len : Fin 12) : decodeRx len 0x10D#9 = .accDelimCr := by simp [decodeRx]

theorem mem_accumulatorBytes {b : Byte} : b ∈ accumulatorBytes ↔ b = 0x09#8 ∨ b = 0x0A#8 ∨ b = 0x0D#8 := by
  simp [accumulatorBytes]

theorem not_mem_accumulatorBytes {b : Byte} :
    b ∉ accumulatorBytes ↔ b ≠ 0x09#8 ∧ b ≠ 0x0A#8 ∧ b ≠ 0x0D#8 := by
  simp [accumulatorBytes]

theorem rxWord_true_not_named : ∀ b : Byte, b ∉ accumulatorBytes →
    ¬(rxWord true b &&& 0x100#9 = 0x000#9) ∧ rxWord true b ≠ 0x109#9 ∧ rxWord true b ≠ 0x10A#9 ∧
      rxWord true b ≠ 0x10D#9 := by decide

theorem rxWord_false_not_delimiter : ∀ b : Byte, rxWord false b ≠ 0x10A#9 ∧ rxWord false b ≠ 0x10D#9 := by decide

/-- The default row: any other byte, appended or dropped by `FRAME_LEN`. -/
theorem decodeRx_other {len : Fin 12} {b : Byte} (hb : b ∉ accumulatorBytes) :
    decodeRx len (rxWord true b) = if len.val < 11 then .accOtherAppend b else .accOtherDrop b := by
  obtain ⟨h0, h1, h2, h3⟩ := rxWord_true_not_named b hb
  simp [decodeRx, h0, h1, h2, h3, Config.frameMaxLen]

/-- What an `rx_event` decodes to, whole: one of the five classes, the last by `FRAME_LEN`. -/
theorem decodeRx_cases (len : Fin 12) (e : RxWord) :
    (∃ b, e = rxWord false b ∧ decodeRx len e = .accIdle b) ∨
    (e = 0x109#9 ∧ decodeRx len e = .accTab) ∨
    (e = 0x10A#9 ∧ decodeRx len e = .accDelimLf) ∨
    (e = 0x10D#9 ∧ decodeRx len e = .accDelimCr) ∨
    (∃ b, b ∉ accumulatorBytes ∧ e = rxWord true b ∧ len.val < 11 ∧ decodeRx len e = .accOtherAppend b) ∨
    (∃ b, b ∉ accumulatorBytes ∧ e = rxWord true b ∧ len.val = 11 ∧ decodeRx len e = .accOtherDrop b) := by
  obtain ⟨b, rfl | rfl⟩ := rxWord_cases e
  · exact .inl ⟨b, rfl, decodeRx_idle len b⟩
  by_cases hb : b ∈ accumulatorBytes
  · obtain rfl | rfl | rfl := mem_accumulatorBytes.1 hb
    · exact .inr (.inl ⟨rfl, decodeRx_tab len⟩)
    · exact .inr (.inr (.inl ⟨rfl, decodeRx_lf len⟩))
    · exact .inr (.inr (.inr (.inl ⟨rfl, decodeRx_cr len⟩)))
  · by_cases hl : len.val < 11
    · exact .inr (.inr (.inr (.inr (.inl ⟨b, hb, rfl, hl, by rw [decodeRx_other hb, if_pos hl]⟩))))
    · exact .inr (.inr (.inr (.inr (.inr ⟨b, hb, rfl, by omega, by rw [decodeRx_other hb, if_neg hl]⟩))))

/-! ## The `cmd_byte` decoder -/

/-- Every byte outside the 17 named ones is UNKNOWN. -/
theorem decodeCmd_unknown : ∀ c : Byte, c ∉ namedCommandBytes → decodeCmd c = .unknown c := by decide

theorem encode_decodeCmd : ∀ c : Byte, encode (decodeCmd c) = .cmd c := by decide

theorem decodeCmd_wellFormed : ∀ c : Byte, (decodeCmd c).wellFormed = true := by decide

/-- Is the instruction a row of `cmd_byte`? -/
def Instr.isCommand : Instr → Bool
  | .setAddr _ | .setLen _ | .modeBin _ | .modeHex _ | .endianLittle | .endianBig => true
  | .start _ | .stats _ | .nopEmpty | .nopLf | .nopCr | .unknown _ => true
  | .accIdle _ | .accTab | .accDelimLf | .accDelimCr | .accOtherAppend _ | .accOtherDrop _ => false
  | .parseHex32 _ _ | .alignDown _ _ | .alignUp _ _ | .byteToHex _ _ => false
  | .word32ToHex _ _ | .word32ToRaw _ _ | .reservedFsel6 _ | .reservedFsel7 _ => false

/-- The dispatch decoder answers commands only. -/
theorem decodeCmd_isCommand : ∀ c : Byte, (decodeCmd c).isCommand = true := by decide

/-! ## The `codec_req` decoder -/

@[simp] theorem decodeCodec_parseHex32 (le : Bool) (ops : CodecOperands) :
    decodeCodec (codecHeader le 0b000#3) ops = .parseHex32 le ops.inBytes := by simp [decodeCodec]

@[simp] theorem decodeCodec_alignDown (le : Bool) (ops : CodecOperands) :
    decodeCodec (codecHeader le 0b001#3) ops = .alignDown le ops.inValue := by simp [decodeCodec]

@[simp] theorem decodeCodec_alignUp (le : Bool) (ops : CodecOperands) :
    decodeCodec (codecHeader le 0b010#3) ops = .alignUp le ops.inValue := by simp [decodeCodec]

@[simp] theorem decodeCodec_byteToHex (le : Bool) (ops : CodecOperands) :
    decodeCodec (codecHeader le 0b011#3) ops = .byteToHex le ops.inByte := by simp [decodeCodec]

@[simp] theorem decodeCodec_word32ToHex (le : Bool) (ops : CodecOperands) :
    decodeCodec (codecHeader le 0b100#3) ops = .word32ToHex le ops.inValue := by simp [decodeCodec]

@[simp] theorem decodeCodec_word32ToRaw (le : Bool) (ops : CodecOperands) :
    decodeCodec (codecHeader le 0b101#3) ops = .word32ToRaw le ops.inValue := by simp [decodeCodec]

@[simp] theorem decodeCodec_reservedFsel6 (le : Bool) (ops : CodecOperands) :
    decodeCodec (codecHeader le 0b110#3) ops = .reservedFsel6 le := by simp [decodeCodec]

@[simp] theorem decodeCodec_reservedFsel7 (le : Bool) (ops : CodecOperands) :
    decodeCodec (codecHeader le 0b111#3) ops = .reservedFsel7 le := by simp [decodeCodec]

theorem codecFsel_cases : ∀ f : BitVec 3, f = 0b000#3 ∨ f = 0b001#3 ∨ f = 0b010#3 ∨ f = 0b011#3 ∨
    f = 0b100#3 ∨ f = 0b101#3 ∨ f = 0b110#3 ∨ f = 0b111#3 := by decide

end Sys2Proof
end

