-- ==== Sys2Proof/Laws/State.lean ====
section
/-! SUPPORT. One lemma per field per update of the state: what each named write gives, and that it leaves every other
field alone. -/

namespace Sys2Proof.Machine.State

variable (s : State)

/-! ### `setActive` -/

@[simp] theorem setActive_frame (v : Bool) : (s.setActive v).frame = s.frame := rfl
@[simp] theorem setActive_frameLen (v : Bool) : (s.setActive v).frameLen = s.frameLen := rfl
@[simp] theorem setActive_accState (v : Bool) : (s.setActive v).accState = s.accState := rfl
@[simp] theorem setActive_active (v : Bool) : (s.setActive v).active = v := rfl
@[simp] theorem setActive_transmitHex (v : Bool) : (s.setActive v).transmitHex = s.transmitHex := rfl
@[simp] theorem setActive_transmitLittleEndian (v : Bool) : (s.setActive v).transmitLittleEndian = s.transmitLittleEndian := rfl
@[simp] theorem setActive_readoutAddress (v : Bool) : (s.setActive v).readoutAddress = s.readoutAddress := rfl
@[simp] theorem setActive_readoutLen (v : Bool) : (s.setActive v).readoutLen = s.readoutLen := rfl
@[simp] theorem setActive_txq (v : Bool) : (s.setActive v).txq = s.txq := rfl
@[simp] theorem setActive_statsBusy (v : Bool) : (s.setActive v).statsBusy = s.statsBusy := rfl
@[simp] theorem setActive_history (v : Bool) : (s.setActive v).history = s.history := rfl
@[simp] theorem setActive_moves (v : Bool) : (s.setActive v).moves = s.moves := rfl

/-! ### `setTransmitHex` -/

@[simp] theorem setTransmitHex_frame (v : Bool) : (s.setTransmitHex v).frame = s.frame := rfl
@[simp] theorem setTransmitHex_frameLen (v : Bool) : (s.setTransmitHex v).frameLen = s.frameLen := rfl
@[simp] theorem setTransmitHex_accState (v : Bool) : (s.setTransmitHex v).accState = s.accState := rfl
@[simp] theorem setTransmitHex_active (v : Bool) : (s.setTransmitHex v).active = s.active := rfl
@[simp] theorem setTransmitHex_transmitHex (v : Bool) : (s.setTransmitHex v).transmitHex = v := rfl
@[simp] theorem setTransmitHex_transmitLittleEndian (v : Bool) : (s.setTransmitHex v).transmitLittleEndian = s.transmitLittleEndian := rfl
@[simp] theorem setTransmitHex_readoutAddress (v : Bool) : (s.setTransmitHex v).readoutAddress = s.readoutAddress := rfl
@[simp] theorem setTransmitHex_readoutLen (v : Bool) : (s.setTransmitHex v).readoutLen = s.readoutLen := rfl
@[simp] theorem setTransmitHex_txq (v : Bool) : (s.setTransmitHex v).txq = s.txq := rfl
@[simp] theorem setTransmitHex_statsBusy (v : Bool) : (s.setTransmitHex v).statsBusy = s.statsBusy := rfl
@[simp] theorem setTransmitHex_history (v : Bool) : (s.setTransmitHex v).history = s.history := rfl
@[simp] theorem setTransmitHex_moves (v : Bool) : (s.setTransmitHex v).moves = s.moves := rfl

/-! ### `setTransmitLittleEndian` -/

@[simp] theorem setTransmitLittleEndian_frame (v : Bool) : (s.setTransmitLittleEndian v).frame = s.frame := rfl
@[simp] theorem setTransmitLittleEndian_frameLen (v : Bool) : (s.setTransmitLittleEndian v).frameLen = s.frameLen := rfl
@[simp] theorem setTransmitLittleEndian_accState (v : Bool) : (s.setTransmitLittleEndian v).accState = s.accState := rfl
@[simp] theorem setTransmitLittleEndian_active (v : Bool) : (s.setTransmitLittleEndian v).active = s.active := rfl
@[simp] theorem setTransmitLittleEndian_transmitHex (v : Bool) : (s.setTransmitLittleEndian v).transmitHex = s.transmitHex := rfl
@[simp] theorem setTransmitLittleEndian_transmitLittleEndian (v : Bool) : (s.setTransmitLittleEndian v).transmitLittleEndian = v := rfl
@[simp] theorem setTransmitLittleEndian_readoutAddress (v : Bool) : (s.setTransmitLittleEndian v).readoutAddress = s.readoutAddress := rfl
@[simp] theorem setTransmitLittleEndian_readoutLen (v : Bool) : (s.setTransmitLittleEndian v).readoutLen = s.readoutLen := rfl
@[simp] theorem setTransmitLittleEndian_txq (v : Bool) : (s.setTransmitLittleEndian v).txq = s.txq := rfl
@[simp] theorem setTransmitLittleEndian_statsBusy (v : Bool) : (s.setTransmitLittleEndian v).statsBusy = s.statsBusy := rfl
@[simp] theorem setTransmitLittleEndian_history (v : Bool) : (s.setTransmitLittleEndian v).history = s.history := rfl
@[simp] theorem setTransmitLittleEndian_moves (v : Bool) : (s.setTransmitLittleEndian v).moves = s.moves := rfl

/-! ### `setReadoutAddress` -/

@[simp] theorem setReadoutAddress_frame (v : Word) : (s.setReadoutAddress v).frame = s.frame := rfl
@[simp] theorem setReadoutAddress_frameLen (v : Word) : (s.setReadoutAddress v).frameLen = s.frameLen := rfl
@[simp] theorem setReadoutAddress_accState (v : Word) : (s.setReadoutAddress v).accState = s.accState := rfl
@[simp] theorem setReadoutAddress_active (v : Word) : (s.setReadoutAddress v).active = s.active := rfl
@[simp] theorem setReadoutAddress_transmitHex (v : Word) : (s.setReadoutAddress v).transmitHex = s.transmitHex := rfl
@[simp] theorem setReadoutAddress_transmitLittleEndian (v : Word) : (s.setReadoutAddress v).transmitLittleEndian = s.transmitLittleEndian := rfl
@[simp] theorem setReadoutAddress_readoutAddress (v : Word) : (s.setReadoutAddress v).readoutAddress = v := rfl
@[simp] theorem setReadoutAddress_readoutLen (v : Word) : (s.setReadoutAddress v).readoutLen = s.readoutLen := rfl
@[simp] theorem setReadoutAddress_txq (v : Word) : (s.setReadoutAddress v).txq = s.txq := rfl
@[simp] theorem setReadoutAddress_statsBusy (v : Word) : (s.setReadoutAddress v).statsBusy = s.statsBusy := rfl
@[simp] theorem setReadoutAddress_history (v : Word) : (s.setReadoutAddress v).history = s.history := rfl
@[simp] theorem setReadoutAddress_moves (v : Word) : (s.setReadoutAddress v).moves = s.moves := rfl

/-! ### `setReadoutLen` -/

@[simp] theorem setReadoutLen_frame (v : Word) : (s.setReadoutLen v).frame = s.frame := rfl
@[simp] theorem setReadoutLen_frameLen (v : Word) : (s.setReadoutLen v).frameLen = s.frameLen := rfl
@[simp] theorem setReadoutLen_accState (v : Word) : (s.setReadoutLen v).accState = s.accState := rfl
@[simp] theorem setReadoutLen_active (v : Word) : (s.setReadoutLen v).active = s.active := rfl
@[simp] theorem setReadoutLen_transmitHex (v : Word) : (s.setReadoutLen v).transmitHex = s.transmitHex := rfl
@[simp] theorem setReadoutLen_transmitLittleEndian (v : Word) : (s.setReadoutLen v).transmitLittleEndian = s.transmitLittleEndian := rfl
@[simp] theorem setReadoutLen_readoutAddress (v : Word) : (s.setReadoutLen v).readoutAddress = s.readoutAddress := rfl
@[simp] theorem setReadoutLen_readoutLen (v : Word) : (s.setReadoutLen v).readoutLen = v := rfl
@[simp] theorem setReadoutLen_txq (v : Word) : (s.setReadoutLen v).txq = s.txq := rfl
@[simp] theorem setReadoutLen_statsBusy (v : Word) : (s.setReadoutLen v).statsBusy = s.statsBusy := rfl
@[simp] theorem setReadoutLen_history (v : Word) : (s.setReadoutLen v).history = s.history := rfl
@[simp] theorem setReadoutLen_moves (v : Word) : (s.setReadoutLen v).moves = s.moves := rfl

/-! ### `setStatsBusy` -/

@[simp] theorem setStatsBusy_frame (v : Bool) : (s.setStatsBusy v).frame = s.frame := rfl
@[simp] theorem setStatsBusy_frameLen (v : Bool) : (s.setStatsBusy v).frameLen = s.frameLen := rfl
@[simp] theorem setStatsBusy_accState (v : Bool) : (s.setStatsBusy v).accState = s.accState := rfl
@[simp] theorem setStatsBusy_active (v : Bool) : (s.setStatsBusy v).active = s.active := rfl
@[simp] theorem setStatsBusy_transmitHex (v : Bool) : (s.setStatsBusy v).transmitHex = s.transmitHex := rfl
@[simp] theorem setStatsBusy_transmitLittleEndian (v : Bool) : (s.setStatsBusy v).transmitLittleEndian = s.transmitLittleEndian := rfl
@[simp] theorem setStatsBusy_readoutAddress (v : Bool) : (s.setStatsBusy v).readoutAddress = s.readoutAddress := rfl
@[simp] theorem setStatsBusy_readoutLen (v : Bool) : (s.setStatsBusy v).readoutLen = s.readoutLen := rfl
@[simp] theorem setStatsBusy_txq (v : Bool) : (s.setStatsBusy v).txq = s.txq := rfl
@[simp] theorem setStatsBusy_statsBusy (v : Bool) : (s.setStatsBusy v).statsBusy = v := rfl
@[simp] theorem setStatsBusy_history (v : Bool) : (s.setStatsBusy v).history = s.history := rfl
@[simp] theorem setStatsBusy_moves (v : Bool) : (s.setStatsBusy v).moves = s.moves := rfl

/-! ### `setTxq` -/

@[simp] theorem setTxq_frame (v : List Byte) : (s.setTxq v).frame = s.frame := rfl
@[simp] theorem setTxq_frameLen (v : List Byte) : (s.setTxq v).frameLen = s.frameLen := rfl
@[simp] theorem setTxq_accState (v : List Byte) : (s.setTxq v).accState = s.accState := rfl
@[simp] theorem setTxq_active (v : List Byte) : (s.setTxq v).active = s.active := rfl
@[simp] theorem setTxq_transmitHex (v : List Byte) : (s.setTxq v).transmitHex = s.transmitHex := rfl
@[simp] theorem setTxq_transmitLittleEndian (v : List Byte) : (s.setTxq v).transmitLittleEndian = s.transmitLittleEndian := rfl
@[simp] theorem setTxq_readoutAddress (v : List Byte) : (s.setTxq v).readoutAddress = s.readoutAddress := rfl
@[simp] theorem setTxq_readoutLen (v : List Byte) : (s.setTxq v).readoutLen = s.readoutLen := rfl
@[simp] theorem setTxq_txq (v : List Byte) : (s.setTxq v).txq = v := rfl
@[simp] theorem setTxq_statsBusy (v : List Byte) : (s.setTxq v).statsBusy = s.statsBusy := rfl
@[simp] theorem setTxq_history (v : List Byte) : (s.setTxq v).history = s.history := rfl
@[simp] theorem setTxq_moves (v : List Byte) : (s.setTxq v).moves = s.moves := rfl

/-! ### `setMoves` -/

@[simp] theorem setMoves_frame (v : List Move) : (s.setMoves v).frame = s.frame := rfl
@[simp] theorem setMoves_frameLen (v : List Move) : (s.setMoves v).frameLen = s.frameLen := rfl
@[simp] theorem setMoves_accState (v : List Move) : (s.setMoves v).accState = s.accState := rfl
@[simp] theorem setMoves_active (v : List Move) : (s.setMoves v).active = s.active := rfl
@[simp] theorem setMoves_transmitHex (v : List Move) : (s.setMoves v).transmitHex = s.transmitHex := rfl
@[simp] theorem setMoves_transmitLittleEndian (v : List Move) : (s.setMoves v).transmitLittleEndian = s.transmitLittleEndian := rfl
@[simp] theorem setMoves_readoutAddress (v : List Move) : (s.setMoves v).readoutAddress = s.readoutAddress := rfl
@[simp] theorem setMoves_readoutLen (v : List Move) : (s.setMoves v).readoutLen = s.readoutLen := rfl
@[simp] theorem setMoves_txq (v : List Move) : (s.setMoves v).txq = s.txq := rfl
@[simp] theorem setMoves_statsBusy (v : List Move) : (s.setMoves v).statsBusy = s.statsBusy := rfl
@[simp] theorem setMoves_history (v : List Move) : (s.setMoves v).history = s.history := rfl
@[simp] theorem setMoves_moves (v : List Move) : (s.setMoves v).moves = v := rfl

/-! ### `record` -/

@[simp] theorem record_frame (e : Event) : (s.record e).frame = s.frame := rfl
@[simp] theorem record_frameLen (e : Event) : (s.record e).frameLen = s.frameLen := rfl
@[simp] theorem record_accState (e : Event) : (s.record e).accState = s.accState := rfl
@[simp] theorem record_active (e : Event) : (s.record e).active = s.active := rfl
@[simp] theorem record_transmitHex (e : Event) : (s.record e).transmitHex = s.transmitHex := rfl
@[simp] theorem record_transmitLittleEndian (e : Event) : (s.record e).transmitLittleEndian = s.transmitLittleEndian := rfl
@[simp] theorem record_readoutAddress (e : Event) : (s.record e).readoutAddress = s.readoutAddress := rfl
@[simp] theorem record_readoutLen (e : Event) : (s.record e).readoutLen = s.readoutLen := rfl
@[simp] theorem record_txq (e : Event) : (s.record e).txq = s.txq := rfl
@[simp] theorem record_statsBusy (e : Event) : (s.record e).statsBusy = s.statsBusy := rfl
@[simp] theorem record_history (e : Event) : (s.record e).history = s.history ++ [e] := rfl
@[simp] theorem record_moves (e : Event) : (s.record e).moves = s.moves := rfl

/-! ### `setFrame` -/

@[simp] theorem setFrame_frame (f : Vector Byte 12) (n : Fin 12) : (s.setFrame f n).frame = f := rfl
@[simp] theorem setFrame_frameLen (f : Vector Byte 12) (n : Fin 12) : (s.setFrame f n).frameLen = n := rfl
@[simp] theorem setFrame_accState (f : Vector Byte 12) (n : Fin 12) : (s.setFrame f n).accState = s.accState := rfl
@[simp] theorem setFrame_active (f : Vector Byte 12) (n : Fin 12) : (s.setFrame f n).active = s.active := rfl
@[simp] theorem setFrame_transmitHex (f : Vector Byte 12) (n : Fin 12) : (s.setFrame f n).transmitHex = s.transmitHex := rfl
@[simp] theorem setFrame_transmitLittleEndian (f : Vector Byte 12) (n : Fin 12) : (s.setFrame f n).transmitLittleEndian = s.transmitLittleEndian := rfl
@[simp] theorem setFrame_readoutAddress (f : Vector Byte 12) (n : Fin 12) : (s.setFrame f n).readoutAddress = s.readoutAddress := rfl
@[simp] theorem setFrame_readoutLen (f : Vector Byte 12) (n : Fin 12) : (s.setFrame f n).readoutLen = s.readoutLen := rfl
@[simp] theorem setFrame_txq (f : Vector Byte 12) (n : Fin 12) : (s.setFrame f n).txq = s.txq := rfl
@[simp] theorem setFrame_statsBusy (f : Vector Byte 12) (n : Fin 12) : (s.setFrame f n).statsBusy = s.statsBusy := rfl
@[simp] theorem setFrame_history (f : Vector Byte 12) (n : Fin 12) : (s.setFrame f n).history = s.history := rfl
@[simp] theorem setFrame_moves (f : Vector Byte 12) (n : Fin 12) : (s.setFrame f n).moves = s.moves := rfl

/-! ### `emit` -/

@[simp] theorem emit_frame (bs : List Byte) : (s.emit bs).frame = s.frame := rfl
@[simp] theorem emit_frameLen (bs : List Byte) : (s.emit bs).frameLen = s.frameLen := rfl
@[simp] theorem emit_accState (bs : List Byte) : (s.emit bs).accState = s.accState := rfl
@[simp] theorem emit_active (bs : List Byte) : (s.emit bs).active = s.active := rfl
@[simp] theorem emit_transmitHex (bs : List Byte) : (s.emit bs).transmitHex = s.transmitHex := rfl
@[simp] theorem emit_transmitLittleEndian (bs : List Byte) : (s.emit bs).transmitLittleEndian = s.transmitLittleEndian := rfl
@[simp] theorem emit_readoutAddress (bs : List Byte) : (s.emit bs).readoutAddress = s.readoutAddress := rfl
@[simp] theorem emit_readoutLen (bs : List Byte) : (s.emit bs).readoutLen = s.readoutLen := rfl
@[simp] theorem emit_txq (bs : List Byte) : (s.emit bs).txq = s.txq ++ bs := rfl
@[simp] theorem emit_statsBusy (bs : List Byte) : (s.emit bs).statsBusy = s.statsBusy := rfl
@[simp] theorem emit_history (bs : List Byte) : (s.emit bs).history = s.history := rfl
@[simp] theorem emit_moves (bs : List Byte) : (s.emit bs).moves = s.moves := rfl

/-! ### `report` -/

@[simp] theorem report_frame : (s.report).frame = s.frame := rfl
@[simp] theorem report_frameLen : (s.report).frameLen = s.frameLen := rfl
@[simp] theorem report_accState : (s.report).accState = s.accState := rfl
@[simp] theorem report_active : (s.report).active = s.active := rfl
@[simp] theorem report_transmitHex : (s.report).transmitHex = s.transmitHex := rfl
@[simp] theorem report_transmitLittleEndian : (s.report).transmitLittleEndian = s.transmitLittleEndian := rfl
@[simp] theorem report_readoutAddress : (s.report).readoutAddress = s.readoutAddress := rfl
@[simp] theorem report_readoutLen : (s.report).readoutLen = s.readoutLen := rfl
@[simp] theorem report_txq : (s.report).txq = s.txq := rfl
@[simp] theorem report_statsBusy : (s.report).statsBusy = true := rfl
@[simp] theorem report_history : (s.report).history = s.history ++ [.statsRequest] := rfl
@[simp] theorem report_moves : (s.report).moves = s.moves := rfl

/-! ### `clearFrame` -/

@[simp] theorem clearFrame_frame : (s.clearFrame).frame = emptyFrame := rfl
@[simp] theorem clearFrame_frameLen : (s.clearFrame).frameLen = 0 := rfl
@[simp] theorem clearFrame_accState : (s.clearFrame).accState = s.accState := rfl
@[simp] theorem clearFrame_active : (s.clearFrame).active = s.active := rfl
@[simp] theorem clearFrame_transmitHex : (s.clearFrame).transmitHex = s.transmitHex := rfl
@[simp] theorem clearFrame_transmitLittleEndian : (s.clearFrame).transmitLittleEndian = s.transmitLittleEndian := rfl
@[simp] theorem clearFrame_readoutAddress : (s.clearFrame).readoutAddress = s.readoutAddress := rfl
@[simp] theorem clearFrame_readoutLen : (s.clearFrame).readoutLen = s.readoutLen := rfl
@[simp] theorem clearFrame_txq : (s.clearFrame).txq = s.txq := rfl
@[simp] theorem clearFrame_statsBusy : (s.clearFrame).statsBusy = s.statsBusy := rfl
@[simp] theorem clearFrame_history : (s.clearFrame).history = s.history := rfl
@[simp] theorem clearFrame_moves : (s.clearFrame).moves = s.moves := rfl

end Sys2Proof.Machine.State
end

