-- ==== Sys2Proof/Laws/Ops.lean ====
section
/-! SUPPORT. What the shared operations do: the hold, the append, the argument bytes and the choice of the next move,
each said once. -/

namespace Sys2Proof.Machine

/-! ## The hold -/

theorem held_eq_false {s : State} : s.held = false ↔ s.txq = [] ∧ s.statsBusy = false := by
  simp [State.held, List.isEmpty_iff]

theorem held_eq_true {s : State} : s.held = true ↔ s.txq ≠ [] ∨ s.statsBusy = true := by
  simp [State.held]

theorem held_of_txq {s : State} (h : s.txq ≠ []) : s.held = true := held_eq_true.2 (.inl h)

@[simp] theorem setMoves_held (s : State) (ms : List Move) : (s.setMoves ms).held = s.held := rfl

@[simp] theorem setFrame_held (s : State) (f : Vector Byte 12) (n : Fin 12) : (s.setFrame f n).held = s.held := rfl

@[simp] theorem setMoves_cmdByte (s : State) (ms : List Move) : (s.setMoves ms).cmdByte = s.cmdByte := rfl

@[simp] theorem setMoves_argValue (s : State) (ms : List Move) : (s.setMoves ms).argValue = s.argValue := rfl

/-! ## The append -/

/-- An append while the frame is not full (spec/42_accumulator.md R155). -/
theorem appendByte_of_lt (s : State) (b : Byte) (h : s.frameLen.val < 11) :
    s.appendByte b = s.setFrame (s.frame.set s.frameLen.val b) ⟨s.frameLen.val + 1, by omega⟩ := by
  rw [State.appendByte, dif_pos h]

/-- Whatever the frame holds, an append writes nothing but the frame and its length. -/
theorem appendByte_eq_setFrame (s : State) (b : Byte) : ∃ f n, s.appendByte b = s.setFrame f n := by
  by_cases h : s.frameLen.val < 11
  · exact ⟨_, _, appendByte_of_lt s b h⟩
  · exact ⟨s.frame, s.frameLen, by rw [State.appendByte, dif_neg h]; rfl⟩

/-! ## The argument bytes -/

@[simp] theorem argBytes_length (s : State) : s.argBytes.length = 10 := by simp [State.argBytes]

/-- Argument byte `i` is slot `i + 1`. -/
theorem argBytes_getElem (s : State) (i : Nat) (h : i < s.argBytes.length) :
    s.argBytes[i] = s.frame[i + 1]'(by rw [argBytes_length] at h; omega) := by
  simp [State.argBytes]

/-- `FRAME[1..10]`, slot by slot. -/
theorem argBytes_eq (s : State) : s.argBytes = [s.frame[1], s.frame[2], s.frame[3], s.frame[4], s.frame[5], s.frame[6],
    s.frame[7], s.frame[8], s.frame[9], s.frame[10]] := by
  apply List.ext_getElem
  · simp
  · intro i h1 h2
    have hi : i < 10 := by simpa using h2
    rw [argBytes_getElem]
    match i, hi with
    | 0, _ | 1, _ | 2, _ | 3, _ | 4, _ | 5, _ | 6, _ | 7, _ | 8, _ | 9, _ => rfl

/-! ## The next move -/

@[simp] theorem isOffer_offer (e : RxWord) : (Move.offer e).isOffer = true := rfl

@[simp] theorem takeMove_nil (held : Bool) : takeMove held [] = none := rfl

/-- A block that is not held takes the first move, whatever it is. -/
@[simp] theorem takeMove_not_held (m : Move) (ms : List Move) : takeMove false (m :: ms) = some (m, ms) := by
  cases m <;> rfl

/-- Held or not, a first move that is no offer is taken. -/
theorem takeMove_of_not_offer (held : Bool) {m : Move} (h : m.isOffer = false) (ms : List Move) :
    takeMove held (m :: ms) = some (m, ms) := by
  cases m with
  | offer e => cases h
  | _ => rfl

/-- While the block is held, an offer is passed over and stays first. -/
theorem takeMove_held_offer (e : RxWord) (ms : List Move) :
    takeMove true (.offer e :: ms) = (takeMove true ms).map (fun p => (p.1, .offer e :: p.2)) := rfl

/-- What is taken: the first move, or, while the block is held, the first that is no offer; the others keep their
order. -/
theorem takeMove_some {held : Bool} {ms : List Move} {m : Move} {rest : List Move}
    (h : takeMove held ms = some (m, rest)) :
    ∃ pre post, ms = pre ++ m :: post ∧ rest = pre ++ post ∧ (∀ x ∈ pre, x.isOffer = true) ∧
      (held = false → pre = []) ∧ (held = true → m.isOffer = false) := by
  cases held with
  | false =>
    cases ms with
    | nil => cases h
    | cons x xs =>
      rw [takeMove_not_held] at h
      cases h
      exact ⟨[], _, rfl, rfl, by simp, fun _ => rfl, fun h => Bool.noConfusion h⟩
  | true =>
    induction ms generalizing rest with
    | nil => cases h
    | cons x xs ih =>
      cases hx : x.isOffer with
      | false =>
        rw [takeMove_of_not_offer true hx] at h
        cases h
        exact ⟨[], _, rfl, rfl, by simp, fun _ => rfl, fun _ => hx⟩
      | true =>
        cases x with
        | offer e =>
          rw [takeMove_held_offer, Option.map_eq_some_iff] at h
          obtain ⟨⟨m', r'⟩, hr, heq⟩ := h
          cases heq
          obtain ⟨pre, post, rfl, rfl, hall, -, hno⟩ := ih hr
          refine ⟨.offer e :: pre, post, rfl, rfl, ?_, fun h => Bool.noConfusion h, hno⟩
          intro x hx
          rcases List.mem_cons.1 hx with rfl | hx
          · rfl
          · exact hall x hx
        | _ => cases hx

/-- When nothing is taken: there is no move, or the block is held and every move is an offer. -/
theorem takeMove_none {held : Bool} {ms : List Move} :
    takeMove held ms = none ↔ ms = [] ∨ held = true ∧ ∀ m ∈ ms, m.isOffer = true := by
  cases held with
  | false => cases ms with
    | nil => simp
    | cons m ms => simp
  | true =>
    induction ms with
    | nil => simp
    | cons x xs ih =>
      cases x with
      | offer e =>
        rw [takeMove_held_offer, Option.map_eq_none_iff, ih]
        cases xs <;> simp
      | _ => simp [takeMove, Move.isOffer]

/-- Taking a move that is no offer leaves the offers as they are. -/
theorem takeMove_offers {held : Bool} {ms : List Move} {m : Move} {rest : List Move}
    (h : takeMove held ms = some (m, rest)) (hm : m.isOffer = false) :
    rest.filter Move.isOffer = ms.filter Move.isOffer := by
  obtain ⟨pre, post, rfl, rfl, -⟩ := takeMove_some h
  simp [List.filter_append, hm]

/-- The move taken is one of the list, and so are those that stay. -/
theorem takeMove_mem {held : Bool} {ms : List Move} {m : Move} {rest : List Move}
    (h : takeMove held ms = some (m, rest)) : m ∈ ms ∧ ∀ x ∈ rest, x ∈ ms := by
  obtain ⟨pre, post, rfl, rfl, -⟩ := takeMove_some h
  refine ⟨by simp, fun x hx => ?_⟩
  rcases List.mem_append.1 hx with hx | hx <;> simp [hx]

end Sys2Proof.Machine
end

