-- ==== Sys2Proof/Laws/Command.lean ====
section
/-! SUPPORT. What the meanings do: a command runs its action, every command and every event gives a next state, and
what a command may change. -/

namespace Sys2Proof.Machine

/-- A command's meaning is its action (spec/43_dispatch.md R170). -/
theorem exec_command {i : Instr} (h : i.isCommand = true) (s : State) : exec i s = .next (runCommand i s) := by
  cases i <;> first | rfl | cases h

theorem exec_decodeCmd (c : Byte) (s : State) : exec (decodeCmd c) s = .next (runCommand (decodeCmd c) s) :=
  exec_command (decodeCmd_isCommand c) s

/-- A dispatch is the meaning of the decoded command. -/
theorem exec_cmdByte (s : State) : exec (decodeCmd s.cmdByte) s = .next (dispatch s) := exec_decodeCmd _ s

theorem delimiter_eq (s : State) : delimiter s = (dispatch s).setFrame emptyFrame 0 := rfl

/-- What a command leaves alone, whichever it is. -/
theorem runCommand_frame (i : Instr) (s : State) :
    (runCommand i s).frame = s.frame ∧ (runCommand i s).frameLen = s.frameLen ∧
      (runCommand i s).accState = s.accState ∧ (runCommand i s).moves = s.moves := by
  cases i <;> exact ⟨rfl, rfl, rfl, rfl⟩

/-- What a command emits: at most 34 bytes at the tail of `TXQ`, or a statistics request, or nothing (R183). -/
theorem runCommand_output (i : Instr) (s : State) :
    (∃ out, out.length ≤ 34 ∧ (runCommand i s).txq = s.txq ++ out ∧ (runCommand i s).statsBusy = s.statsBusy ∧
      (runCommand i s).history = s.history) ∨
    ((runCommand i s).txq = s.txq ∧ (runCommand i s).statsBusy = true ∧
      (runCommand i s).history = s.history ++ [.statsRequest]) := by
  cases i with
  | stats l => exact .inr ⟨rfl, rfl, rfl⟩
  | setAddr l =>
    refine .inl ⟨msgAddr ++ hex8 (alignDown s.argValue) ++ crlf, ?_, rfl, rfl, rfl⟩
    simp [hex8, msgAddr, crlf]
  | setLen l =>
    refine .inl ⟨msgLen ++ hex8 (alignUp s.argValue) ++ crlf, ?_, rfl, rfl, rfl⟩
    simp [hex8, msgLen, crlf]
  | modeBin l => exact .inl ⟨msgBin, by decide, rfl, rfl, rfl⟩
  | modeHex l => exact .inl ⟨msgHex, by decide, rfl, rfl, rfl⟩
  | endianLittle => exact .inl ⟨msgLe, by decide, rfl, rfl, rfl⟩
  | endianBig => exact .inl ⟨msgBe, by decide, rfl, rfl, rfl⟩
  | start l => exact .inl ⟨msgStart, by decide, rfl, rfl, rfl⟩
  | unknown c => exact .inl ⟨msgErr, by decide, rfl, rfl, rfl⟩
  | _ => exact .inl ⟨[], Nat.zero_le _, (List.append_nil _).symm, rfl, rfl⟩

/-- The window registers after a command stay multiples of 4 (spec/10_state.md R28, R29). -/
theorem runCommand_aligned (i : Instr) {s : State} (ha : s.readoutAddress.toNat % 4 = 0)
    (hl : s.readoutLen.toNat % 4 = 0) :
    (runCommand i s).readoutAddress.toNat % 4 = 0 ∧ (runCommand i s).readoutLen.toNat % 4 = 0 := by
  cases i with
  | setAddr l => exact ⟨alignDown_mod_four _, hl⟩
  | setLen l => exact ⟨ha, alignUp_mod_four _⟩
  | _ => exact ⟨ha, hl⟩

/-- A codec request answers by recording its response, unless its select is reserved
(spec/60_exceptions.md R219, spec/30_encoding.md R80). -/
theorem exec_decodeCodec (h : CodecHeader) (ops : CodecOperands) (s : State) :
    (codecFsel h ≠ 0b110#3 ∧ codecFsel h ≠ 0b111#3 ∧
      ∃ r, exec (decodeCodec h ops) s = .next (s.record (.codecResponse r))) ∨
    ((codecFsel h = 0b110#3 ∨ codecFsel h = 0b111#3) ∧
      exec (decodeCodec h ops) s = .refused (.reservedCodecSelect (codecFsel h))) := by
  have hw := codecHeader_fields h
  obtain hf | hf | hf | hf | hf | hf | hf | hf := codecFsel_cases (codecFsel h) <;> rw [hf] at hw <;> rw [← hw]
  · exact .inl ⟨by simp, by simp, _, by rw [decodeCodec_parseHex32]; rfl⟩
  · exact .inl ⟨by simp, by simp, _, by rw [decodeCodec_alignDown]; rfl⟩
  · exact .inl ⟨by simp, by simp, _, by rw [decodeCodec_alignUp]; rfl⟩
  · exact .inl ⟨by simp, by simp, _, by rw [decodeCodec_byteToHex]; rfl⟩
  · exact .inl ⟨by simp, by simp, _, by rw [decodeCodec_word32ToHex]; rfl⟩
  · exact .inl ⟨by simp, by simp, _, by rw [decodeCodec_word32ToRaw]; rfl⟩
  · exact .inr ⟨.inl (by simp), by rw [decodeCodec_reservedFsel6, codecFsel_codecHeader]; rfl⟩
  · exact .inr ⟨.inr (by simp), by rw [decodeCodec_reservedFsel7, codecFsel_codecHeader]; rfl⟩

end Sys2Proof.Machine
end

