-- ==== Sys2Proof/Laws/Step.lean ====
section
/-! SUPPORT. Everything a step can do, said once: `step_cases` lists the cases of a step that gives a next state, and
later proofs cite it instead of unfolding `step`. -/

namespace Sys2Proof.Machine

/-- The cases of a step of `s` that gives a next state. -/
inductive StepCase (s : State) : State → Prop where
  /-- No move: a held block stays, a block that is not held polls and finds no byte. -/
  | stay (none : takeMove s.held s.moves = none) : StepCase s s
  /-- An offer that changes nothing: no byte, a tab, or a byte for a full frame. -/
  | quiet (e : RxWord) (rest : List Move) (free : s.held = false) (ms : s.moves = .offer e :: rest)
      (notLf : e ≠ 0x10A#9) (notCr : e ≠ 0x10D#9) : StepCase s (s.setMoves rest)
  /-- An offered byte that the frame takes. -/
  | append (b : Byte) (rest : List Move) (free : s.held = false) (ms : s.moves = .offer (rxWord true b) :: rest)
      (other : b ∉ accumulatorBytes) (room : s.frameLen.val < 11) : StepCase s ((s.setMoves rest).appendByte b)
  /-- An offered delimiter. -/
  | dispatch (e : RxWord) (rest : List Move) (free : s.held = false) (ms : s.moves = .offer e :: rest)
      (delim : e = 0x10A#9 ∨ e = 0x10D#9) :
      StepCase s ((runCommand (decodeCmd s.cmdByte) (s.setMoves rest)).setFrame emptyFrame 0)
  /-- The host's other moves. -/
  | drain (k : Nat) (rest : List Move) (mv : takeMove s.held s.moves = some (.drain k, rest)) :
      StepCase s (hostDrain k (s.setMoves rest))
  | statsDone (rest : List Move) (mv : takeMove s.held s.moves = some (.statsDone, rest)) :
      StepCase s ((s.setMoves rest).setStatsBusy false)
  | readControl (rest : List Move) (mv : takeMove s.held s.moves = some (.readControl, rest)) :
      StepCase s ((s.setMoves rest).record (.controlRead s.controlState))
  | codec (h : CodecHeader) (ops : CodecOperands) (rest : List Move) (r : CodecResponse)
      (mv : takeMove s.held s.moves = some (.codec h ops, rest)) :
      StepCase s ((s.setMoves rest).record (.codecResponse r))
  | reset (rest : List Move) (mv : takeMove s.held s.moves = some (.reset, rest)) :
      StepCase s (hostReset (s.setMoves rest))

/-! ## The drain -/

/-- A drain does nothing to an empty queue, and otherwise moves a prefix of it to the host. -/
theorem hostDrain_cases (k : Nat) (s : State) :
    (s.txq = [] ∧ hostDrain k s = s) ∨
    (s.txq ≠ [] ∧ hostDrain k s = (s.setTxq (s.txq.drop (k + 1))).record (.accepted (s.txq.take (k + 1)))) := by
  unfold hostDrain
  split
  · rename_i h
    exact .inl ⟨by simpa using h, rfl⟩
  · rename_i h
    exact .inr ⟨by simpa using h, rfl⟩

@[simp] theorem hostDrain_moves (k : Nat) (s : State) : (hostDrain k s).moves = s.moves := by
  obtain ⟨-, h⟩ | ⟨-, h⟩ := hostDrain_cases k s <;> simp [h]

@[simp] theorem hostDrain_frame (k : Nat) (s : State) : (hostDrain k s).frame = s.frame := by
  obtain ⟨-, h⟩ | ⟨-, h⟩ := hostDrain_cases k s <;> simp [h]

@[simp] theorem hostDrain_frameLen (k : Nat) (s : State) : (hostDrain k s).frameLen = s.frameLen := by
  obtain ⟨-, h⟩ | ⟨-, h⟩ := hostDrain_cases k s <;> simp [h]

@[simp] theorem hostDrain_controlState (k : Nat) (s : State) : (hostDrain k s).controlState = s.controlState := by
  obtain ⟨-, h⟩ | ⟨-, h⟩ := hostDrain_cases k s <;> simp [h, State.controlState]

@[simp] theorem hostDrain_statsBusy (k : Nat) (s : State) : (hostDrain k s).statsBusy = s.statsBusy := by
  obtain ⟨-, h⟩ | ⟨-, h⟩ := hostDrain_cases k s <;> simp [h]

theorem hostDrain_txq (k : Nat) (s : State) : (hostDrain k s).txq = s.txq.drop (k + 1) := by
  obtain ⟨hq, h⟩ | ⟨-, h⟩ := hostDrain_cases k s <;> rw [h]
  · simp [hq]
  · rfl

/-! ## The cases of a step -/

/-- The step by the move it takes. -/
theorem step_some {s : State} {m : Move} {rest : List Move} (h : takeMove s.held s.moves = some (m, rest)) :
    step s = runMove m (s.setMoves rest) := by
  rw [step, h]

/-- A step without a move changes nothing, held or not. -/
theorem step_none {s : State} (h : takeMove s.held s.moves = none) : step s = .next s := by
  rw [step, h]
  show runNoMove s = .next s
  unfold runNoMove
  cases s.held with
  | true => rfl
  | false =>
    rw [show (0x000#9 : RxWord) = rxWord false 0x00#8 from by decide, decodeRx_idle]
    rfl

/-- An offer is taken only by a block that is not held, and then it is the first move. -/
theorem offer_taken {s : State} {e : RxWord} {rest : List Move}
    (h : takeMove s.held s.moves = some (.offer e, rest)) : s.held = false ∧ s.moves = .offer e :: rest := by
  obtain ⟨pre, post, hm, rfl, -, hfree, hheld⟩ := takeMove_some h
  cases hh : s.held with
  | true => exact absurd (hheld hh) (by simp)
  | false =>
    rw [hfree hh] at hm ⊢
    exact ⟨rfl, hm⟩

theorem takeMove_first_offer {s : State} {e : RxWord} {rest : List Move} (free : s.held = false)
    (ms : s.moves = .offer e :: rest) : takeMove s.held s.moves = some (.offer e, rest) := by
  rw [free, ms, takeMove_not_held]

/-- The step of an offered delimiter. -/
theorem step_delimiter {s : State} {e : RxWord} {rest : List Move} (free : s.held = false)
    (ms : s.moves = .offer e :: rest) (delim : e = 0x10A#9 ∨ e = 0x10D#9) :
    step s = .next ((runCommand (decodeCmd s.cmdByte) (s.setMoves rest)).setFrame emptyFrame 0) := by
  rw [step_some (takeMove_first_offer free ms)]
  show exec (decodeRx (s.setMoves rest).frameLen e) (s.setMoves rest) = _
  obtain rfl | rfl := delim
  · rw [decodeRx_lf]; rfl
  · rw [decodeRx_cr]; rfl

/-- The step of an offered byte that the frame takes. -/
theorem step_append {s : State} {b : Byte} {rest : List Move} (free : s.held = false)
    (ms : s.moves = .offer (rxWord true b) :: rest) (other : b ∉ accumulatorBytes) (room : s.frameLen.val < 11) :
    step s = .next ((s.setMoves rest).appendByte b) := by
  rw [step_some (takeMove_first_offer free ms)]
  show exec (decodeRx (s.setMoves rest).frameLen (rxWord true b)) (s.setMoves rest) = _
  rw [decodeRx_other other, State.setMoves_frameLen, if_pos room]
  rfl

/-- What a step that gives a next state has done. -/
theorem step_cases {s s' : State} (h : step s = .next s') : StepCase s s' := by
  cases hmv : takeMove s.held s.moves with
  | none =>
    rw [step_none hmv] at h
    cases h
    exact .stay hmv
  | some p =>
    obtain ⟨m, rest⟩ := p
    have hstep := step_some hmv
    rw [hstep] at h
    cases m with
    | offer e =>
      obtain ⟨free, ms⟩ := offer_taken hmv
      have h' : exec (decodeRx s.frameLen e) (s.setMoves rest) = .next s' := h
      obtain ⟨b, he, hd⟩ | ⟨he, hd⟩ | ⟨he, hd⟩ | ⟨he, hd⟩ | ⟨b, hb, he, hl, hd⟩ | ⟨b, hb, he, hl, hd⟩ :=
        decodeRx_cases s.frameLen e <;> rw [hd] at h' <;> cases h'
      · exact .quiet e rest free ms (he ▸ (rxWord_false_not_delimiter b).1) (he ▸ (rxWord_false_not_delimiter b).2)
      · exact .quiet e rest free ms (by rw [he]; decide) (by rw [he]; decide)
      · exact .dispatch e rest free ms (.inl he)
      · exact .dispatch e rest free ms (.inr he)
      · exact .append b rest free (he ▸ ms) hb hl
      · exact .quiet e rest free ms (he ▸ (rxWord_true_not_named b hb).2.2.1) (he ▸ (rxWord_true_not_named b hb).2.2.2)
    | drain k => cases h; exact .drain k rest hmv
    | statsDone => cases h; exact .statsDone rest hmv
    | readControl => cases h; exact .readControl rest hmv
    | reset => cases h; exact .reset rest hmv
    | codec hd ops =>
      have h' : exec (decodeCodec hd ops) (s.setMoves rest) = .next s' := h
      obtain ⟨-, -, r, hr⟩ | ⟨-, hr⟩ := exec_decodeCodec hd ops (s.setMoves rest) <;> rw [hr] at h' <;> cases h'
      exact .codec hd ops rest r hmv

/-! ## The next move and the next command, by the move taken -/

theorem nextMove_of_some {s : State} {m : Move} {rest : List Move} (h : takeMove s.held s.moves = some (m, rest)) :
    s.nextMove = some m := by
  rw [State.nextMove, h]; rfl

theorem nextMove_of_none {s : State} (h : takeMove s.held s.moves = none) : s.nextMove = none := by
  rw [State.nextMove, h]; rfl

/-- A step that takes no delimiter dispatches nothing. -/
theorem nextCommand_none {s : State} (h1 : s.nextMove ≠ some (.offer 0x10A#9)) (h2 : s.nextMove ≠ some (.offer 0x10D#9)) :
    s.nextCommand = none := by
  rw [State.nextCommand, if_neg (by simp [h1, h2])]

theorem nextCommand_of_not_offer {s : State} {m : Move} {rest : List Move}
    (h : takeMove s.held s.moves = some (m, rest)) (hm : m.isOffer = false) : s.nextCommand = none := by
  apply nextCommand_none <;> rw [nextMove_of_some h] <;> rintro ⟨⟩ <;> cases hm

/-- A step that takes a delimiter dispatches the frame's command. -/
theorem nextCommand_delimiter {s : State} {e : RxWord} {rest : List Move} (free : s.held = false)
    (ms : s.moves = .offer e :: rest) (delim : e = 0x10A#9 ∨ e = 0x10D#9) :
    s.nextCommand = some (decodeCmd s.cmdByte) := by
  rw [State.nextCommand, nextMove_of_some (takeMove_first_offer free ms), if_pos]
  obtain rfl | rfl := delim <;> simp

/-- The move taken is one of the host's moves. -/
theorem nextMove_mem {s : State} {m : Move} (h : s.nextMove = some m) : m ∈ s.moves := by
  rw [State.nextMove, Option.map_eq_some_iff] at h
  obtain ⟨⟨a, r⟩, h1, rfl⟩ := h
  exact (takeMove_mem h1).1

theorem nextCommand_stay {s : State} (h : takeMove s.held s.moves = none) : s.nextCommand = none := by
  apply nextCommand_none <;> rw [nextMove_of_none h] <;> simp

theorem nextCommand_quiet {s : State} {e : RxWord} {rest : List Move} (free : s.held = false)
    (ms : s.moves = .offer e :: rest) (notLf : e ≠ 0x10A#9) (notCr : e ≠ 0x10D#9) : s.nextCommand = none := by
  apply nextCommand_none <;> rw [nextMove_of_some (takeMove_first_offer free ms)] <;> simpa

theorem nextCommand_other {s : State} {b : Byte} {rest : List Move} (free : s.held = false)
    (ms : s.moves = .offer (rxWord true b) :: rest) (other : b ∉ accumulatorBytes) : s.nextCommand = none :=
  nextCommand_quiet free ms (rxWord_true_not_named b other).2.2.1 (rxWord_true_not_named b other).2.2.2

/-- A step only takes moves away. -/
theorem step_moves_mem {s s' : State} (h : step s = .next s') : ∀ m ∈ s'.moves, m ∈ s.moves := by
  cases step_cases h with
  | stay => exact fun _ hm => hm
  | quiet e rest free ms =>
    intro m hm
    rw [ms]
    exact List.mem_cons_of_mem _ hm
  | append b rest free ms =>
    obtain ⟨f, n, hf⟩ := appendByte_eq_setFrame (s.setMoves rest) b
    rw [hf, ms]
    exact fun m hm => List.mem_cons_of_mem _ hm
  | dispatch e rest free ms =>
    intro m hm
    rw [State.setFrame_moves, (runCommand_frame _ _).2.2.2] at hm
    rw [ms]
    exact List.mem_cons_of_mem _ hm
  | drain k rest mv =>
    intro m hm
    rw [hostDrain_moves] at hm
    exact (takeMove_mem mv).2 m hm
  | statsDone rest mv => exact (takeMove_mem mv).2
  | readControl rest mv => exact (takeMove_mem mv).2
  | codec h ops rest r mv => exact (takeMove_mem mv).2
  | reset rest mv => exact (takeMove_mem mv).2

/-! ## Runs -/

/-- The host's run, whose first step gives a next state. -/
theorem coreRun_next (M : Host.Core) {n : Nat} {s s' : M.State} (h : M.step s = .next s') :
    M.run (n + 1) s = M.run n s' := by rw [Host.Core.run, h]

/-- The host's run, whose first step is refused. -/
theorem coreRun_refused (M : Host.Core) {n : Nat} {s : M.State} {r : M.Refusal} (h : M.step s = .refused r) :
    M.run (n + 1) s = .refused r := by rw [Host.Core.run, h]

/-- The machine's own run is the host's. -/
theorem run_eq_core_run (n : Nat) (s : State) : run n s = Host.Core.run Sys2Proof.core n s := by
  induction n generalizing s with
  | zero => rfl
  | succ n ih =>
    rw [run]
    cases hs : step s with
    | next s' => exact (ih s').trans (coreRun_next Sys2Proof.core hs).symm
    | fault f => exact nomatch (f : Fault)
    | refused r => exact (coreRun_refused Sys2Proof.core hs).symm

theorem run_zero (s : State) : run 0 s = .next s := rfl

/-- A run of one step more, whose first step gives a next state. -/
theorem run_succ {n : Nat} {s s' : State} (h : step s = .next s') : run (n + 1) s = run n s' := by
  rw [run, h]

/-- A run that gives a next state has a first step that does. -/
theorem run_succ_next {n : Nat} {s t : State} (h : run (n + 1) s = .next t) :
    ∃ s', step s = .next s' ∧ run n s' = .next t := by
  rw [run] at h
  cases hs : step s with
  | next s' =>
    rw [hs] at h
    exact ⟨s', rfl, h⟩
  | fault f => exact nomatch (f : Fault)
  | refused r =>
    rw [hs] at h
    cases h

/-- Two runs in a row are one. -/
theorem run_add {m : Nat} (n : Nat) {s t : State} (h : run m s = .next t) : run (m + n) s = run n t := by
  induction m generalizing s with
  | zero =>
    rw [run_zero] at h
    cases h
    rw [Nat.zero_add]
  | succ m ih =>
    obtain ⟨s', h1, h2⟩ := run_succ_next h
    rw [Nat.add_right_comm, run_succ h1, ih h2]

/-- A property that every step keeps is kept by every run. -/
theorem run_induction {P : State → Prop} (keep : ∀ s s', P s → step s = .next s' → P s') :
    ∀ (n : Nat) (s t : State), P s → run n s = .next t → P t
  | 0, s, t, hs, h => by
    rw [run_zero] at h
    cases h
    exact hs
  | n + 1, s, t, hs, h => by
    obtain ⟨s', h1, h2⟩ := run_succ_next h
    exact run_induction keep n s' t (keep s s' hs h1) h2

end Sys2Proof.Machine
end

