-- ==== Sys2Proof/Laws/Inv.lean ====
section
/-! SUPPORT. The invariants and the writes that touch none of their fields. -/

namespace Sys2Proof.Machine.State

variable {s : State}

theorem Inv.setMoves (h : s.Inv) (ms : List Move) : (s.setMoves ms).Inv :=
  ⟨h.1, h.2, h.3, h.4, h.5, h.6, h.7⟩

theorem Inv.record (h : s.Inv) (e : Event) : (s.record e).Inv :=
  ⟨h.1, h.2, h.3, h.4, h.5, h.6, h.7⟩

/-- A command byte never reaches dispatch as a tab, a line feed or a carriage return (spec/30_encoding.md R77). -/
theorem Inv.cmdByte_other (h : s.Inv) : s.cmdByte ∉ accumulatorBytes := by
  by_cases h0 : s.frameLen.val = 0
  · have hz : s.cmdByte = 0x00#8 := h.zeroBeyond 0 (by omega) (by omega)
    rw [hz]
    decide
  · exact h.storedOther 0 (by omega) (by omega)

end Sys2Proof.Machine.State
end

