-- ==== Sys2Proof/Laws/PerInstr.lean ====
section
/-! SUPPORT. One statement per instruction: the word the encoder gives meets the row's match and mask in
spec/opcode_table.json. -/

namespace Sys2Proof.Laws

/-- The number of an encoded word, as the opcode table numbers its bits. -/
def wordNumber : Encoded → Nat
  | .rx e => e.toNat
  | .cmd c => c.toNat
  | .codec h _ => h.toNat

/-- "mask" and "match" of the row, as spec/opcode_table.json has them. -/
def tableRow : Instr → Nat × Nat
  | .accIdle _ => (0x100, 0x000)
  | .accTab => (0x1FF, 0x109)
  | .accDelimLf => (0x1FF, 0x10A)
  | .accDelimCr => (0x1FF, 0x10D)
  | .accOtherAppend _ => (0x100, 0x100)
  | .accOtherDrop _ => (0x100, 0x100)
  | .setAddr _ => (0xDF, 0x41)
  | .setLen _ => (0xDF, 0x4C)
  | .modeBin _ => (0xDF, 0x42)
  | .modeHex _ => (0xDF, 0x48)
  | .endianLittle => (0xFF, 0x65)
  | .endianBig => (0xFF, 0x45)
  | .start _ => (0xDF, 0x53)
  | .stats _ => (0xDF, 0x50)
  | .nopEmpty => (0xFF, 0x00)
  | .nopLf => (0xFF, 0x0A)
  | .nopCr => (0xFF, 0x0D)
  | .unknown _ => (0x00, 0x00)
  | .parseHex32 _ _ => (0x7, 0x0)
  | .alignDown _ _ => (0x7, 0x1)
  | .alignUp _ _ => (0x7, 0x2)
  | .byteToHex _ _ => (0x7, 0x3)
  | .word32ToHex _ _ => (0x7, 0x4)
  | .word32ToRaw _ _ => (0x7, 0x5)
  | .reservedFsel6 _ => (0x7, 0x6)
  | .reservedFsel7 _ => (0x7, 0x7)

end Sys2Proof.Laws

namespace Sys2Proof.Laws.RowMatch

/-- The encoded word, masked, is the row's match. -/
def Statement (i : Instr) : Prop := wordNumber (encode i) &&& (tableRow i).1 = (tableRow i).2

theorem accIdle (b : Byte) : Statement (.accIdle b) := by
  have h : ∀ b : Byte, (rxWord false b).toNat &&& 0x100 = 0x000 := by decide
  exact h b

theorem accTab : Statement .accTab := rfl

theorem accDelimLf : Statement .accDelimLf := rfl

theorem accDelimCr : Statement .accDelimCr := rfl

theorem rxWord_true_match : ∀ b : Byte, (rxWord true b).toNat &&& 0x100 = 0x100 := by decide

theorem accOtherAppend (b : Byte) : Statement (.accOtherAppend b) := rxWord_true_match b

theorem accOtherDrop (b : Byte) : Statement (.accOtherDrop b) := rxWord_true_match b

theorem setAddr (lower : Bool) : Statement (.setAddr lower) := by cases lower <;> exact rfl

theorem setLen (lower : Bool) : Statement (.setLen lower) := by cases lower <;> exact rfl

theorem modeBin (lower : Bool) : Statement (.modeBin lower) := by cases lower <;> exact rfl

theorem modeHex (lower : Bool) : Statement (.modeHex lower) := by cases lower <;> exact rfl

theorem endianLittle : Statement .endianLittle := rfl

theorem endianBig : Statement .endianBig := rfl

theorem start (lower : Bool) : Statement (.start lower) := by cases lower <;> exact rfl

theorem stats (lower : Bool) : Statement (.stats lower) := by cases lower <;> exact rfl

theorem nopEmpty : Statement .nopEmpty := rfl

theorem nopLf : Statement .nopLf := rfl

theorem nopCr : Statement .nopCr := rfl

theorem unknown (c : Byte) : Statement (.unknown c) := Nat.and_zero _

/-- Bits 2:0 of a header are its select (spec/30_encoding.md R70). -/
theorem codecHeader_match : ∀ (le : Bool) (f : BitVec 3), (codecHeader le f).toNat &&& 0x7 = f.toNat := by decide

theorem parseHex32 (le : Bool) (inBytes : Vector Byte 10) : Statement (.parseHex32 le inBytes) :=
  codecHeader_match le _

theorem alignDown (le : Bool) (inValue : Word) : Statement (.alignDown le inValue) :=
  codecHeader_match le _

theorem alignUp (le : Bool) (inValue : Word) : Statement (.alignUp le inValue) :=
  codecHeader_match le _

theorem byteToHex (le : Bool) (inByte : Byte) : Statement (.byteToHex le inByte) :=
  codecHeader_match le _

theorem word32ToHex (le : Bool) (inValue : Word) : Statement (.word32ToHex le inValue) :=
  codecHeader_match le _

theorem word32ToRaw (le : Bool) (inValue : Word) : Statement (.word32ToRaw le inValue) :=
  codecHeader_match le _

theorem reservedFsel6 (le : Bool) : Statement (.reservedFsel6 le) :=
  codecHeader_match le _

theorem reservedFsel7 (le : Bool) : Statement (.reservedFsel7 le) :=
  codecHeader_match le _

end Sys2Proof.Laws.RowMatch
end

