-- ==== Sys2Proof/Tests/Slice0.lean ====
section
/-! SUPPORT. The model's own tests: the well-formedness smoke test, words written out from the spec's encodings, one
step of each instruction (expected results from spec/95_test_vectors.md and from the rules named), and the witnesses that
the statements' hypotheses can be met. -/

namespace Sys2Proof.Tests

open Sys2Proof.Machine

/-! ## Helpers -/

/-- What `f` reads in the next state, if there is one. -/
def after {α : Type} (f : State → α) : Host.Outcome State Fault Refusal → Option α
  | .next s => some (f s)
  | .fault _ => none
  | .refused _ => none

/-- The reset state with `bytes` stored in the frame. -/
def withFrame (bytes : List Byte) : State := bytes.foldl State.appendByte State.reset

/-- The same, and the host's moves to come. -/
def withMoves (bytes : List Byte) (ms : List Move) : State := (withFrame bytes).setMoves ms

/-- The ASCII codes of a text. -/
def ascii (text : List Char) : List Byte := text.map (fun c => BitVec.ofNat 8 c.toNat)

/-- The offered delimiter `\r`. -/
def offerCr : Move := .offer 0x10D#9

/-- The only event of a state's history, if it is a codec response. -/
def response (s : State) : Option CodecResponse :=
  match s.history with
  | [.codecResponse r] => some r
  | _ => none

/-- Ten input bytes: the text padded with zeros (spec/40_codec_parse.md R102). -/
def padded (text : List Char) : Vector Byte 10 := Vector.ofFn (fun i => (ascii text).getD i.val 0x00#8)

/-! ## Well-formedness -/

theorem test_wellFormed_refuses_named_bytes :
    (Instr.accOtherAppend 0x09#8).wellFormed = false ∧ (Instr.accOtherDrop 0x0D#8).wellFormed = false ∧
    (Instr.unknown 0x61#8).wellFormed = false := by decide

theorem test_applies_splits_accOther :
    (Instr.accOtherAppend 0x41#8).applies 11 = false ∧ (Instr.accOtherDrop 0x41#8).applies 10 = false := by decide

/-! ## Decoding, from words written out -/

theorem test_decode_rx_words :
    decode 0 (.rx 0b000000000#9) = .accIdle 0x00#8 ∧ decode 3 (.rx 0b011111111#9) = .accIdle 0xFF#8 ∧
    decode 0 (.rx 0b100001001#9) = .accTab ∧ decode 0 (.rx 0b100001010#9) = .accDelimLf ∧
    decode 0 (.rx 0b100001101#9) = .accDelimCr ∧ decode 0 (.rx 0b100000000#9) = .accOtherAppend 0x00#8 ∧
    decode 10 (.rx 0b101000110#9) = .accOtherAppend 0x46#8 ∧ decode 11 (.rx 0b101000110#9) = .accOtherDrop 0x46#8 := by
  decide

theorem test_decode_letter_words :
    decodeCmd 0b01000001#8 = .setAddr false ∧ decodeCmd 0b01100001#8 = .setAddr true ∧
    decodeCmd 0b01101100#8 = .setLen true ∧ decodeCmd 0b01000010#8 = .modeBin false ∧
    decodeCmd 0b01101000#8 = .modeHex true ∧ decodeCmd 0b01100101#8 = .endianLittle ∧
    decodeCmd 0b01000101#8 = .endianBig ∧ decodeCmd 0b01110011#8 = .start true ∧
    decodeCmd 0b01010000#8 = .stats false := by decide

theorem test_decode_other_commands :
    decodeCmd 0b00000000#8 = .nopEmpty ∧ decodeCmd 0b00001010#8 = .nopLf ∧ decodeCmd 0b00001101#8 = .nopCr ∧
    decodeCmd 0b00100000#8 = .unknown 0x20#8 ∧ decodeCmd 0b11000001#8 = .unknown 0xC1#8 := by decide

theorem test_decode_codec_words :
    decodeCodec 0b1000#4 zeroOperands = .parseHex32 true (Vector.replicate 10 0x00#8) ∧
    decodeCodec 0b0001#4 zeroOperands = .alignDown false 0#32 ∧
    decodeCodec 0b0010#4 zeroOperands = .alignUp false 0#32 ∧
    decodeCodec 0b0011#4 zeroOperands = .byteToHex false 0x00#8 ∧
    decodeCodec 0b1100#4 zeroOperands = .word32ToHex true 0#32 ∧
    decodeCodec 0b0101#4 zeroOperands = .word32ToRaw false 0#32 ∧
    decodeCodec 0b0110#4 zeroOperands = .reservedFsel6 false ∧
    decodeCodec 0b1111#4 zeroOperands = .reservedFsel7 true := by decide

theorem test_table_words_and_rejections :
    decodeTableWord 16 0x10D = some .accDelimCr ∧ decodeTableWord 8 0x41 = some (.setAddr false) ∧
    decodeTableWord 8 0x00 = some .nopEmpty ∧ decodeTableWord 8 0x05 = some (.word32ToRaw false 0#32) ∧
    decodeTableWord 16 0x200 = none ∧ wordAt .cmd 0x100 = .error .cmdByteTooWide := by decide

/-! ## The accumulator (spec/95_test_vectors.md 2.8) -/

theorem test_idle_keeps_frame : after State.frameLen (exec (.accIdle 0xFF#8) (withFrame [0x41#8, 0x31#8])) = some 2 := by
  decide

theorem test_tab_is_not_stored : after State.frameLen (step (withMoves [0x41#8, 0x31#8] [.offer 0x109#9])) = some 2 := by
  decide

theorem test_append_first_byte :
    after (fun s => (s.frame[0], s.frameLen)) (step (withMoves [] [.offer 0x141#9])) = some (0x41#8, 1) := by decide

theorem test_append_eleventh_byte :
    after (fun s => (s.frame[10], s.frame[11], s.frameLen))
      (step (withMoves (List.replicate 10 0x31#8) [.offer 0x146#9])) = some (0x46#8, 0x00#8, 11) := by decide

theorem test_drop_when_full :
    after (fun s => (s.frame[10], s.frame[11], s.frameLen))
      (step (withMoves (List.replicate 11 0x31#8) [.offer 0x146#9])) = some (0x31#8, 0x00#8, 11) := by decide

theorem test_cr_dispatches_and_clears :
    after (fun s => (s.readoutLen, s.frame[0], s.frameLen)) (step (withMoves [0x4C#8, 0x35#8] [.offer 0x10D#9])) =
      some (0x00000008#32, 0x00#8, 0) := by decide

theorem test_lf_dispatches :
    after (fun s => (s.transmitLittleEndian, s.txq, s.frameLen)) (step (withMoves [0x65#8] [.offer 0x10A#9])) =
      some (true, msgLe, 0) := by decide

/-! ## The commands (spec/95_test_vectors.md 1, 2.9) -/

/-- S1: `A1A`. -/
theorem test_setAddr_S1 :
    after (fun s => (s.readoutAddress, s.txq)) (exec (.setAddr false) (withFrame (ascii ['A', '1', 'A']))) =
      some (0x00000018#32, ascii ['S', 't', 'a', 'r', 't', ' ', 'a', 'd', 'd', 'r', 'e', 's', 's', ' ', 's', 'e', 't',
        ' ', 't', 'o', ' ', '0', 'x', '0', '0', '0', '0', '0', '0', '1', '8', '\r', '\n']) := by decide

/-- Ten digits: the last eight count, rounded down. -/
theorem test_setAddr_wraps :
    after State.readoutAddress (exec (.setAddr false)
      (withFrame (ascii ['A', '1', '2', '3', '4', '5', '6', '7', '8', 'F', 'F']))) = some 0x345678FC#32 := by decide

/-- S2: `L5`. -/
theorem test_setLen_S2 :
    after (fun s => (s.readoutLen, s.txq)) (exec (.setLen false) (withFrame (ascii ['L', '5']))) =
      some (0x00000008#32, ascii ['R', 'e', 'a', 'd', 'o', 'u', 't', ' ', 'l', 'e', 'n', 'g', 't', 'h', ' ', 's', 'e',
        't', ' ', 't', 'o', ' ', '0', 'x', '0', '0', '0', '0', '0', '0', '0', '8', '\r', '\n']) := by decide

/-- `LFFFFFFFD`: the pinned wrap. -/
theorem test_setLen_wraps :
    after State.readoutLen (exec (.setLen true)
      (withFrame (ascii ['l', 'F', 'F', 'F', 'F', 'F', 'F', 'F', 'D']))) = some 0x00000000#32 := by decide

theorem test_modeBin : after (fun s => (s.transmitHex, s.txq.length))
    (exec (.modeBin true) (withFrame (ascii ['b', 'X']))) = some (false, 29) := by decide

theorem test_modeHex : after (fun s => (s.transmitHex, s.txq.length))
    (exec (.modeHex true) (State.reset.setTransmitHex false)) = some (true, 26) := by decide

theorem test_endianLittle : after (fun s => (s.transmitLittleEndian, s.transmitHex))
    (exec .endianLittle State.reset) = some (true, true) := by decide

theorem test_endianBig : after (fun s => (s.transmitLittleEndian, s.txq.length))
    (exec .endianBig (State.reset.setTransmitLittleEndian true)) = some (false, 25) := by decide

theorem test_start : after (fun s => (s.active, s.txq))
    (exec (.start false) (withFrame (ascii ['S', 'x', 'y', 'z']))) =
      some (true, ascii ['F', 'l', 'a', 's', 'h', ' ', 'r', 'e', 'a', 'd', 'o', 'u', 't', ' ', 's', 't', 'a', 'r', 't',
        'e', 'd', '!', '\r', '\n']) := by decide

theorem test_stats : after (fun s => (s.statsBusy, s.txq, s.history, s.held))
    (exec (.stats true) (withFrame [0x70#8])) = some (true, [], [.statsRequest], true) := by decide

/-- `\0s`: a leading NUL is a no-op, nothing is emitted and `active` stays 0. -/
theorem test_nopEmpty : after (fun s => (s.active, s.txq, s.frameLen))
    (step (withMoves [0x00#8, 0x73#8] [.offer 0x10D#9])) = some (false, [], 0) := by decide

theorem test_nopLf : after (fun s => s.txq) (exec .nopLf State.reset) = some [] := by decide

theorem test_nopCr : after (fun s => s.txq) (exec .nopCr State.reset) = some [] := by decide

/-- S4: `z`. -/
theorem test_unknown_S4 : after (fun s => (s.controlState, s.txq)) (step (withMoves [0x7A#8] [.offer 0x10D#9])) =
    some (⟨false, true, false, 0#32, 0#32⟩, ascii ['E', 'R', 'R', 'O', 'R', ':', ' ', 'u', 'n', 'k', 'n', 'o', 'w', 'n',
      ' ', 'c', 'o', 'm', 'm', 'a', 'n', 'd', '\r', '\n']) := by decide

/-! ## The codec (spec/95_test_vectors.md 2.1 to 2.7) -/

theorem test_hexDigitValue_edges :
    [0x2F#8, 0x30#8, 0x39#8, 0x3A#8, 0x40#8, 0x41#8, 0x46#8, 0x47#8, 0x60#8, 0x61#8, 0x66#8, 0x67#8, 0xB0#8].map
      hexDigitValue = [none, some 0#4, some 9#4, none, none, some 10#4, some 15#4, none, none, some 10#4, some 15#4,
        none, none] := by decide

set_option maxRecDepth 4000 in
theorem test_isHexDigit_counts_22 :
    (List.range 256).countP (fun n => isHexDigit (BitVec.ofNat 8 n)) = 22 := by decide

theorem test_parseHex32_wraps :
    after response (exec (.parseHex32 false (padded ['1', '2', '3', '4', '5', '6', '7', '8', '9', 'A'])) State.reset) =
      some (some ⟨0x3456789A#32, 10, []⟩) := by decide

theorem test_parseHex32_stops :
    after response (exec (.parseHex32 true (padded ['0', 'x', '1', '0'])) State.reset) = some (some ⟨0#32, 1, []⟩) := by
  decide

theorem test_alignDown : after response (exec (.alignDown true 0xFFFFFFFF#32) State.reset) =
    some (some ⟨0xFFFFFFFC#32, 0, []⟩) := by decide

theorem test_alignUp_band :
    [0xFFFFFFFB#32, 0xFFFFFFFC#32, 0xFFFFFFFD#32, 0xFFFFFFFF#32, 0x1A#32, 0x7FFFFFFF#32].map alignUp =
      [0xFFFFFFFC#32, 0xFFFFFFFC#32, 0#32, 0#32, 0x1C#32, 0x80000000#32] := by decide

theorem test_alignUp_saturates_when_selected :
    [0xFFFFFFFC#32, 0xFFFFFFFD#32, 0xFFFFFFFF#32, 0x05#32].map (alignUpWith .saturate) =
      [0xFFFFFFFC#32, 0xFFFFFFFC#32, 0xFFFFFFFC#32, 0x08#32] := by decide

/-- `0x3C` for either value of `HEX_UPPER`. -/
theorem test_byteToHex_either_case :
    byteToHex 0x3C#8 = [0x33#8, if Config.hexUpper then 0x43#8 else 0x63#8] := by
  cases h : Config.hexUpper <;> simp [byteToHex, hexLut, h]

theorem test_byteToHex_digits : after response (exec (.byteToHex false 0x09#8) State.reset) =
    some (some ⟨0#32, 0, [0x30#8, 0x39#8]⟩) := by decide

/-- S3: little-endian text of 0x12345678. -/
theorem test_word32ToHex_S3 : after response (exec (.word32ToHex true 0x12345678#32) State.reset) =
    some (some ⟨0#32, 0, [0x37#8, 0x38#8, 0x35#8, 0x36#8, 0x33#8, 0x34#8, 0x31#8, 0x32#8]⟩) := by decide

theorem test_word32ToHex_big : word32ToHexBytes 0x12345678#32 false = ascii ['1', '2', '3', '4', '5', '6', '7', '8'] := by
  decide

theorem test_word32ToRaw : (word32ToRawBytes 0xDEADBEEF#32 false, word32ToRawBytes 0xDEADBEEF#32 true) =
    ([0xDE#8, 0xAD#8, 0xBE#8, 0xEF#8], [0xEF#8, 0xBE#8, 0xAD#8, 0xDE#8]) := by decide

theorem test_reserved_fsel6_gives_no_result : after response (exec (.reservedFsel6 true) State.reset) = none := by decide

theorem test_reserved_fsel7_gives_no_result : after response (exec (.reservedFsel7 false) State.reset) = none := by
  decide

/-! ## The host (spec/95_test_vectors.md P6) -/

/-- The host drains 10 of 24 bytes: 14 stay, the block stays held. -/
theorem test_drain_partly : after (fun s => (s.txq.length, s.held))
    (step ((State.reset.emit msgStart).setMoves [.drain 9])) = some (14, true) := by decide

/-- An offer in front of a drain waits while the block is held; the drain acts. -/
theorem test_drain_passes_offer : after (fun s => (s.txq, s.moves, s.frameLen))
    (step ((State.reset.emit msgStart).setMoves [.offer 0x141#9, .drain 30])) =
      some ([], [.offer 0x141#9], 0) := by decide

theorem test_fetch_word_runs : after (fun s => (s.transmitHex, s.frameLen, s.moves))
    (step ((State.reset.emit msgStart).withFetchWord 8 0x42)) = some (false, 0, []) := by decide

/-! ## Witnesses: states and operands that meet the statements' hypotheses -/

/-- A state that is not the reset state and meets the invariants: `A` stored, an address set. -/
theorem witness_invariants : ((withFrame [0x41#8]).setReadoutAddress 0x18#32).Inv where
  zeroBeyond := by decide
  storedOther := by decide
  addrAligned := by decide
  lenAligned := by decide
  txqBounded := by decide
  heldEmpty := by decide
  oneHold := by decide

/-- EveryStepKeepsTheInvariants: its step appends a digit. -/
theorem witness_invariant_step :
    (((withFrame [0x41#8]).setReadoutAddress 0x18#32).setMoves [.offer 0x131#9]).Inv ∧
    ∃ s', step (((withFrame [0x41#8]).setReadoutAddress 0x18#32).setMoves [.offer 0x131#9]) = .next s' :=
  ⟨witness_invariants.setMoves _, _, rfl⟩

/-- ResetMoveRestoresEveryRegister, held, behind an offer. -/
theorem witness_reset_move :
    takeMove ((State.reset.emit msgStart).setMoves [offerCr, .reset, .drain 0]).held
      ((State.reset.emit msgStart).setMoves [offerCr, .reset, .drain 0]).moves = some (.reset, [offerCr, .drain 0]) := by
  decide

/-- ActiveIsSetOnlyByStartAndStaysSet, both clauses with hypotheses. -/
theorem witness_active :
    (∃ s', step (withMoves [0x73#8] [offerCr]) = .next s') ∧ (withMoves [0x73#8] [offerCr]).nextMove ≠ some .reset ∧
    (withMoves [0x73#8] [offerCr]).nextCommand = some (.start true) ∧
    Move.reset ∉ (State.reset.setActive true).moves ∧ (State.reset.setActive true).active = true ∧
    ∃ t, run 1 (State.reset.setActive true) = .next t :=
  ⟨⟨_, rfl⟩, by decide, by decide, by decide, by decide, _, rfl⟩

/-- ControlStateChangesOnlyAtItsCommands: a step that dispatches each of the commands. -/
theorem witness_control_commands :
    (withMoves [0x41#8] [offerCr]).nextCommand = some (.setAddr false) ∧
    (withMoves [0x6C#8] [offerCr]).nextCommand = some (.setLen true) ∧
    (withMoves [0x42#8] [offerCr]).nextCommand = some (.modeBin false) ∧
    (withMoves [0x68#8] [offerCr]).nextCommand = some (.modeHex true) ∧
    (withMoves [0x65#8] [offerCr]).nextCommand = some .endianLittle ∧
    (withMoves [0x45#8] [offerCr]).nextCommand = some .endianBig ∧
    (withMoves [0x53#8] [offerCr]).nextCommand = some (.start false) ∧
    (withMoves [0x70#8] [offerCr]).nextCommand = some (.stats true) := by decide

/-- The same statement: those steps give a next state and are no resets; a step that dispatches nothing. -/
theorem witness_control_steps (c : Byte) :
    (∃ s', step (withMoves [c] [offerCr]) = .next s') ∧ (withMoves [c] [offerCr]).nextMove ≠ some .reset ∧
    (withMoves [c] []).nextCommand = none :=
  ⟨⟨_, step_delimiter rfl rfl (.inr rfl)⟩, by
    rw [nextMove_of_some (takeMove_first_offer rfl rfl)]
    decide, nextCommand_stay rfl⟩

/-- DecodeOfEncodeIsIdentity at the boundary lengths. -/
theorem witness_decode_encode :
    (Instr.accOtherAppend 0x41#8).wellFormed = true ∧ (Instr.accOtherAppend 0x41#8).applies 10 = true ∧
    (Instr.accOtherDrop 0xFF#8).wellFormed = true ∧ (Instr.accOtherDrop 0xFF#8).applies 11 = true ∧
    (Instr.unknown 0x09#8).wellFormed = true := by decide

/-- RxEventMapIsTheTable and AppendStoresTheByteAtFrameLen: a byte of the default row, at the boundary lengths. -/
theorem witness_rx_other :
    (0x08#8 : Byte) ≠ 0x09#8 ∧ (0x08#8 : Byte) ≠ 0x0A#8 ∧ (0x08#8 : Byte) ≠ 0x0D#8 ∧
    (10 : Fin 12).val < 11 ∧ (11 : Fin 12).val = 11 ∧ (withFrame (List.replicate 10 0x31#8)).frameLen.val ≤ 10 := by
  decide

/-- CommandByteMapIsTheTable and UnknownCommandEmitsTheErrorLine: a byte without a row that is no tab. -/
theorem witness_unnamed_byte : (0x20#8 : Byte) ∉ namedCommandBytes ∧ (0x20#8 : Byte) ≠ 0x09#8 := by decide

/-- StepRunsTheDecodedInstruction, clause by clause. -/
theorem witness_step_runs :
    ((Instr.accOtherAppend 0x41#8).wellFormed = true ∧
      (Instr.accOtherAppend 0x41#8).applies (withMoves [] [.offer 0x141#9]).frameLen = true ∧
      encode (.accOtherAppend 0x41#8) = .rx 0x141#9 ∧ (withMoves [] [.offer 0x141#9]).held = false ∧
      (withMoves [] [.offer 0x141#9]).moves = [.offer 0x141#9]) ∧
    takeMove ((State.reset.emit msgStart).setMoves [offerCr, .codec 0x5#4 zeroOperands]).held
      ((State.reset.emit msgStart).setMoves [offerCr, .codec 0x5#4 zeroOperands]).moves =
        some (.codec 0x5#4 zeroOperands, [offerCr]) ∧
    ((Instr.start true).wellFormed = true ∧
      encode (.start true) = .cmd (withMoves [0x73#8] [offerCr]).frame[0] ∧
      (withMoves [0x73#8] [offerCr]).held = false ∧ (withMoves [0x73#8] [offerCr]).moves = [.offer 0x10D#9]) ∧
    ((withMoves [0x73#8] []).held = false ∧ (withMoves [0x73#8] []).moves = []) := by decide

/-- StepIsTakenHeldOrRefused: each kind of step occurs. -/
theorem witness_step_classes :
    State.reset.stepClass = .taken ∧ ((State.reset.emit msgStart).setMoves [offerCr]).stepClass = .held ∧
    (State.reset.setMoves [.codec 0x6#4 zeroOperands]).stepClass = .refused 0b110#3 ∧
    (State.reset.setMoves [.codec 0xF#4 zeroOperands]).stepClass = .refused 0b111#3 := by decide

/-- HeldBlockConsumesNoOffer. -/
theorem witness_held_step :
    ((State.reset.emit msgStart).setMoves [offerCr, .readControl]).held = true ∧
    (∃ s', step ((State.reset.emit msgStart).setMoves [offerCr, .readControl]) = .next s') ∧
    ((State.reset.emit msgStart).setMoves [offerCr, .readControl]).nextMove ≠ some .reset :=
  ⟨by decide, ⟨_, rfl⟩, by decide⟩

/-- HoldLastsUntilTheHostLiftsIt, both clauses. -/
theorem witness_hold :
    (((State.reset.emit msgStart).setMoves [offerCr]).txq ≠ [] ∧
      (∀ m ∈ ((State.reset.emit msgStart).setMoves [offerCr]).moves, m ≠ .reset ∧ ∀ k, m ≠ .drain k) ∧
      ∃ t, run 1 ((State.reset.emit msgStart).setMoves [offerCr]) = .next t) ∧
    ((State.reset.report.setMoves [offerCr]).statsBusy = true ∧
      (∀ m ∈ (State.reset.report.setMoves [offerCr]).moves, m ≠ .reset ∧ m ≠ .statsDone) ∧
      ∃ t, run 1 (State.reset.report.setMoves [offerCr]) = .next t) :=
  ⟨⟨by decide, by simp [offerCr], _, rfl⟩, by decide, by simp [offerCr], _, rfl⟩

/-- DrainAndDoneLiftTheHold: each hold by its move, behind an offer; then both moves in a row. -/
theorem witness_drain_done :
    (((State.reset.emit msgStart).setMoves [offerCr, .drain 23]).txq ≠ [] ∧
      ((State.reset.emit msgStart).setMoves [offerCr, .drain 23]).statsBusy = false ∧
      ((State.reset.emit msgStart).setMoves [offerCr, .drain 23]).txq.length ≤ 23 + 1 ∧
      takeMove ((State.reset.emit msgStart).setMoves [offerCr, .drain 23]).held
        ((State.reset.emit msgStart).setMoves [offerCr, .drain 23]).moves = some (.drain 23, [offerCr])) ∧
    ((State.reset.report.setMoves [offerCr, .statsDone]).txq = [] ∧
      (State.reset.report.setMoves [offerCr, .statsDone]).statsBusy = true ∧
      takeMove (State.reset.report.setMoves [offerCr, .statsDone]).held
        (State.reset.report.setMoves [offerCr, .statsDone]).moves = some (.statsDone, [offerCr])) ∧
    ((State.reset.emit msgStart).setMoves [.drain 23, .statsDone]).txq.length ≤ 23 + 1 ∧
    ((State.reset.emit msgStart).setMoves [.drain 23, .statsDone]).moves = [.drain 23, .statsDone] := by decide

/-- HeldBlockTakesTheFirstOtherMove: offers in front of a move that is none. -/
theorem witness_passed_offers :
    (∀ x ∈ [offerCr, offerCr], x.isOffer = true) ∧ Move.isOffer .statsDone = false := by decide

/-- IdleTabAndDropChangeNothing and AppendAndDropAtTheOthersLengths: a full frame, and one with one slot left. -/
theorem witness_idle_drop :
    rxPresent 0x0FF#9 = false ∧ (0x08#8 : Byte) ∉ accumulatorBytes ∧ (11 : Fin 12).val = 11 ∧
    (withFrame (List.replicate 11 0x31#8)).frameLen.val = 11 ∧
    (withFrame (List.replicate 10 0x31#8)).frameLen.val ≤ 10 := by decide

/-- EmptyLineChangesNothing. -/
theorem witness_empty_line : State.reset.frame = Vector.replicate 12 0x00#8 ∧ State.reset.frameLen = 0 := by decide

/-- FrameIsTheFirstElevenNonTabBytes, with a tab and an idle poll among the answers. -/
theorem witness_line :
    let events : List RxWord := [0x141#9, 0x109#9, 0x00D#9, 0x131#9]
    (withMoves [] (events.map .offer ++ [offerCr])).held = false ∧
    (withMoves [] (events.map .offer ++ [offerCr])).frame = Vector.replicate 12 0x00#8 ∧
    (withMoves [] (events.map .offer ++ [offerCr])).frameLen = 0 ∧
    (∀ e ∈ events, e ≠ 0x10A#9 ∧ e ≠ 0x10D#9) ∧
    [0x41#8, 0x31#8] = ((events.filter (fun e => rxPresent e && rxByte e != 0x09#8)).map rxByte).take 11 ∧
    (withMoves [] (events.map .offer ++ [offerCr])).moves = events.map .offer ++ [offerCr] := by decide

/-- SetAddrStoresTheAlignedArgument and SetLenStoresTheAlignedArgument: bytes of both cases, and the value the hypothesis
names. -/
theorem witness_set_bytes :
    (0x61#8 &&& 0xDF#8 : Byte) = 0x41#8 ∧ (0x6C#8 &&& 0xDF#8 : Byte) = 0x4C#8 ∧
    (0x18#32 : Word) = alignDown (parseHex32 (withFrame (ascii ['A', '1', 'A'])).argBytes).1 ∧
    (0x08#32 : Word) = alignUp (parseHex32 (withFrame (ascii ['L', '5'])).argBytes).1 := by decide

/-- The encodings of the other letters. -/
theorem witness_letters :
    (0x62#8 &&& 0xDF#8 : Byte) = 0x42#8 ∧ (0x68#8 &&& 0xDF#8 : Byte) = 0x48#8 ∧ (0x73#8 &&& 0xDF#8 : Byte) = 0x53#8 ∧
    (0x50#8 &&& 0xDF#8 : Byte) = 0x50#8 := by decide

/-- NopCommandsChangeNothing: a state that meets the invariants and holds no byte. -/
theorem witness_empty_frame_inv : (State.reset.setReadoutLen 0x08#32).Inv ∧
    (State.reset.setReadoutLen 0x08#32).frameLen.val = 0 :=
  ⟨⟨by decide, by decide, by decide, by decide, by decide, by decide, by decide⟩, rfl⟩

/-- ArgumentsOfOtherCommandsHaveNoEffect: `b` with other bytes after it. -/
theorem witness_arguments :
    (withFrame [0x62#8, 0x58#8]).frame[0] = (withFrame [0x62#8]).frame[0] ∧
    decodeCmd (withFrame [0x62#8]).frame[0] = .modeBin true ∧
    ∀ lower, Instr.modeBin true ≠ .setAddr lower ∧ Instr.modeBin true ≠ .setLen lower := by decide

/-- NumericLineStoresItsValue: its state, with any letter and delimiter, and `1aF` as the text. -/
theorem witness_numeric_line (letter delimiter : Byte) :
    let text := ascii ['1', 'a', 'F']
    let line := (letter :: text ++ [delimiter]).map (fun b => Move.offer (rxWord true b))
    (State.reset.setMoves line).held = false ∧ (State.reset.setMoves line).frame = Vector.replicate 12 0x00#8 ∧
    (State.reset.setMoves line).frameLen = 0 ∧ text.map hexDigitValue = [1#4, 10#4, 15#4].map some ∧
    text.length ≤ 10 ∧
    (0x1AF#32 : Word) = BitVec.ofNat 32 ([1#4, 10#4, 15#4].foldl (fun a (d : Nibble) => a * 16 + d.toNat) 0) ∧
    (State.reset.setMoves line).moves = line ++ [] :=
  ⟨rfl, rfl, rfl, by decide, by decide, by decide, (List.append_nil _).symm⟩

/-- HexDigitValueIsThatOfAscii and HexTableIsAscii: a byte of each range and of none, nibbles of both ranges. -/
theorem witness_hex_ranges :
    (0x30 ≤ (0x39#8 : Byte).toNat ∧ (0x39#8 : Byte).toNat ≤ 0x39) ∧
    (0x61 ≤ (0x66#8 : Byte).toNat ∧ (0x66#8 : Byte).toNat ≤ 0x66) ∧
    (0x41 ≤ (0x46#8 : Byte).toNat ∧ (0x46#8 : Byte).toNat ≤ 0x46) ∧
    (¬(0x30 ≤ (0x3A#8 : Byte).toNat ∧ (0x3A#8 : Byte).toNat ≤ 0x39) ∧
      ¬(0x61 ≤ (0x3A#8 : Byte).toNat ∧ (0x3A#8 : Byte).toNat ≤ 0x66) ∧
      ¬(0x41 ≤ (0x3A#8 : Byte).toNat ∧ (0x3A#8 : Byte).toNat ≤ 0x46)) ∧
    (9#4 : Nibble).toNat ≤ 9 ∧ 10 ≤ (10#4 : Nibble).toNat := by decide

/-- ParseIsBaseSixteenOfTheLongestPrefix: ten digits, the end of input, and a stopping byte. -/
theorem witness_parse :
    (ascii ['1', 'A']).map hexDigitValue = [1#4, 10#4].map some ∧ (ascii ['1', 'A']).length ≤ 10 ∧
    hexDigitValue 0x47#8 = none ∧
    (List.replicate 10 0x46#8).map hexDigitValue = (List.replicate 10 15#4).map some ∧
    (List.replicate 10 0x46#8).length = 10 := by decide

/-- AlignUpIsTheMultipleOfFourAbove: both sides of the boundary. -/
theorem witness_align_band : (0xFFFFFFFC#32 : Word).toNat ≤ 0xFFFFFFFC ∧ 0xFFFFFFFD ≤ (0xFFFFFFFD#32 : Word).toNat := by
  decide

/-- HexTextIsTheNibblesInOrder: the bytes of a word. -/
theorem witness_word_bytes :
    (0xDE#8 : Byte).toNat = (0xDEADBEEF#32 : Word).toNat / 2 ^ 24 ∧
    (0xAD#8 : Byte).toNat = (0xDEADBEEF#32 : Word).toNat / 2 ^ 16 % 256 ∧
    (0xBE#8 : Byte).toNat = (0xDEADBEEF#32 : Word).toNat / 2 ^ 8 % 256 ∧
    (0xEF#8 : Byte).toNat = (0xDEADBEEF#32 : Word).toNat % 256 := by decide

/-- The codec statements: headers with each select they name, the reserved ones among them. -/
theorem witness_selects :
    codecFsel 0x8#4 = 0b000#3 ∧ codecFsel 0x9#4 = 0b001#3 ∧ codecFsel 0x2#4 = 0b010#3 ∧ codecFsel 0x3#4 = 0b011#3 ∧ codecFsel 0xC#4 = 0b100#3 ∧ codecFsel 0xD#4 = 0b101#3 ∧
    codecFsel 0xE#4 = 0b110#3 ∧ codecFsel 0x7#4 = 0b111#3 := by decide

/-- DrainTakesAPrefixOfTheQueue: a queue that waits, with an offer in front, and an empty one. -/
theorem witness_drain :
    ((State.reset.emit msgErr).setMoves [offerCr, .drain 0]).txq ≠ [] ∧
    takeMove ((State.reset.emit msgErr).setMoves [offerCr, .drain 0]).held
      ((State.reset.emit msgErr).setMoves [offerCr, .drain 0]).moves = some (.drain 0, [offerCr]) ∧
    (State.reset.setMoves [.drain 0]).txq = [] ∧
    takeMove (State.reset.setMoves [.drain 0]).held (State.reset.setMoves [.drain 0]).moves = some (.drain 0, []) := by
  decide

/-- DoneAndReadMovesAct, held and behind an offer. -/
theorem witness_done_read :
    takeMove (State.reset.report.setMoves [offerCr, .statsDone]).held
      (State.reset.report.setMoves [offerCr, .statsDone]).moves = some (.statsDone, [offerCr]) ∧
    takeMove (State.reset.report.setMoves [offerCr, .readControl]).held
      (State.reset.report.setMoves [offerCr, .readControl]).moves = some (.readControl, [offerCr]) := by decide

/-- ReservedCodecRequestsAreRefused: a step that takes no request. -/
theorem witness_no_request (h : CodecHeader) (ops : CodecOperands) :
    (State.reset.setMoves [offerCr]).nextMove ≠ some (.codec h ops) := by
  rw [nextMove_of_some (takeMove_first_offer rfl rfl)]
  exact fun e => nomatch e

/-- FeedbackStreamGrowsOnlyByReplies: a step without a command, and one that dispatches `z`. -/
theorem witness_feedback :
    (∃ s', step ((State.reset.emit msgErr).setMoves [.drain 0]) = .next s') ∧
    ((State.reset.emit msgErr).setMoves [.drain 0]).nextMove ≠ some .reset ∧
    ((State.reset.emit msgErr).setMoves [.drain 0]).nextCommand = none ∧
    (∃ s', step (withMoves [0x7A#8] [offerCr]) = .next s') ∧
    (withMoves [0x7A#8] [offerCr]).nextCommand = some (.unknown 0x7A#8) ∧
    ∃ t, exec (.unknown 0x7A#8) (withMoves [0x7A#8] [offerCr]) = .next t :=
  ⟨⟨_, rfl⟩, by decide, by decide, ⟨_, rfl⟩, by decide, _, rfl⟩

end Sys2Proof.Tests
end

section
/-! PROOFS. The ControlState registers along a step, and what follows for `active` (spec/10_state.md R25). -/

namespace Sys2Proof.Machine

/-! ## The ControlState registers after a step -/

/-- What a command leaves in the registers does not depend on the host's moves still to come. -/
theorem runCommand_setMoves_controlState (i : Instr) (s : State) (ms : List Move) :
    (runCommand i (s.setMoves ms)).controlState = (runCommand i s).controlState := by
  cases i <;> rfl

@[simp] theorem appendByte_controlState (s : State) (b : Byte) : (s.appendByte b).controlState = s.controlState := by
  obtain ⟨f, n, h⟩ := appendByte_eq_setFrame s b
  rw [h]
  rfl

/-- The five registers after a step that is no reset: as the dispatched command leaves them, and unchanged if the step
dispatches none (R34). -/
theorem step_controlState {s s' : State} (h : step s = .next s') (noReset : s.nextMove ≠ some .reset) :
    (s.nextCommand = none ∧ s'.controlState = s.controlState) ∨
    (s.nextCommand = some (decodeCmd s.cmdByte) ∧
      s'.controlState = (runCommand (decodeCmd s.cmdByte) s).controlState) := by
  cases step_cases h with
  | stay noMove => exact .inl ⟨nextCommand_stay noMove, rfl⟩
  | quiet e rest free ms notLf notCr => exact .inl ⟨nextCommand_quiet free ms notLf notCr, rfl⟩
  | append b rest free ms other => exact .inl ⟨nextCommand_other free ms other, appendByte_controlState _ b⟩
  | dispatch e rest free ms delim =>
    exact .inr ⟨nextCommand_delimiter free ms delim, runCommand_setMoves_controlState _ s rest⟩
  | drain k rest mv => exact .inl ⟨nextCommand_of_not_offer mv rfl, hostDrain_controlState k _⟩
  | statsDone rest mv => exact .inl ⟨nextCommand_of_not_offer mv rfl, rfl⟩
  | readControl rest mv => exact .inl ⟨nextCommand_of_not_offer mv rfl, rfl⟩
  | codec hdr ops rest r mv => exact .inl ⟨nextCommand_of_not_offer mv rfl, rfl⟩
  | reset rest mv => exact absurd (nextMove_of_some mv) noReset

/-! ## `active` -/

/-- START sets `active`; every other command leaves it alone (R25). -/
theorem runCommand_active (i : Instr) (s : State) :
    (runCommand i s).active = true ↔ s.active = true ∨ ∃ lower, i = .start lower := by
  cases i with
  | start lower => exact iff_of_true rfl (.inr ⟨lower, rfl⟩)
  | _ => exact (or_iff_left (fun ⟨_, h⟩ => nomatch h)).symm

/-- A step that is no reset leaves `active` set exactly if it was set or the step dispatches START. -/
theorem step_active {s s' : State} (h : step s = .next s') (noReset : s.nextMove ≠ some .reset) :
    s'.active = true ↔ s.active = true ∨ ∃ lower, s.nextCommand = some (.start lower) := by
  obtain ⟨hcmd, hregs⟩ | ⟨hcmd, hregs⟩ := step_controlState h noReset
  · have hactive : s'.active = s.active := congrArg ControlState.active hregs
    simp [hcmd, hactive]
  · have hactive : s'.active = (runCommand (decodeCmd s.cmdByte) s).active := congrArg ControlState.active hregs
    simp [hcmd, hactive, runCommand_active]

/-- A state in which `active` is set and the host has no reset to come. -/
def State.StaysActive (s : State) : Prop := s.active = true ∧ Move.reset ∉ s.moves

theorem step_keeps_staysActive (s s' : State) (hs : s.StaysActive) (h : step s = .next s') : s'.StaysActive := by
  obtain ⟨hactive, hmoves⟩ := hs
  have noReset : s.nextMove ≠ some .reset := fun hm => hmoves (nextMove_mem hm)
  exact ⟨(step_active h noReset).2 (.inl hactive), fun hm => hmoves (step_moves_mem h _ hm)⟩

/-- Settles O5: a step writes `active` only by the command it dispatches, START, and a run without a reset keeps "set,
and no reset to come". -/
theorem activeIsSetOnlyByStartAndStaysSet : Obligations.ActiveIsSetOnlyByStartAndStaysSet := by
  refine ⟨rfl, fun s s' h noReset => step_active h noReset, fun n s t hmoves hactive hrun => ?_⟩
  have ht : t.StaysActive := run_induction step_keeps_staysActive n s t ⟨hactive, hmoves⟩ hrun
  exact ht.1

end Sys2Proof.Machine
end

section
/-! PROOFS. The feedback text of SET_ADDR and SET_LEN as a function of the register they store (spec/43_dispatch.md R182). -/

namespace Sys2Proof.Machine

/-- SET_ADDR's reply, read off the register it has stored (R171, R182). -/
theorem setAddr_txq (s : State) :
    (setAddr s).txq = s.txq ++ (msgAddr ++ word32ToHexBytes (setAddr s).readoutAddress false ++ crlf) := by
  simp [setAddr, hex8]

/-- SET_LEN's reply, read off the register it has stored (R172, R182). -/
theorem setLen_txq (s : State) :
    (setLen s).txq = s.txq ++ (msgLen ++ word32ToHexBytes (setLen s).readoutLen false ++ crlf) := by
  simp [setLen, hex8]

/-- Settles O32: `setAddr_txq` and `setLen_txq` hold in every state, so in those with any two output modes, and the
modes are no part of the text they name. -/
theorem feedbackTextIsAlwaysBigEndianHex : Obligations.FeedbackTextIsAlwaysBigEndianHex := by
  intro s lower hex little
  constructor
  · exact ⟨_, exec_command (i := .setAddr lower) rfl _, setAddr_txq _⟩
  · exact ⟨_, exec_command (i := .setLen lower) rfl _, setLen_txq _⟩

end Sys2Proof.Machine
end

section
/-! PROOFS. The `rx_event` map as a table (spec/30_encoding.md R75), and which codec requests and steps are refused
(R80). -/

namespace Sys2Proof.Machine

/-! ## The `rx_event` map -/

/-- Settles O9: `decodeRx_idle`, `decodeRx_tab`, `decodeRx_lf`, `decodeRx_cr` and `decodeRx_other` are the rows of the
table, the last of them both default rows, and `rxWord_cases` says that there is no other word. -/
theorem rxEventMapIsTheTable : Obligations.RxEventMapIsTheTable := by
  refine ⟨decodeRx_idle, decodeRx_tab, decodeRx_lf, decodeRx_cr, ?append, ?drop, rxWord_cases⟩
  case append =>
    intro len b notTab notLf notCr room
    rw [decodeRx_other (not_mem_accumulatorBytes.2 ⟨notTab, notLf, notCr⟩), if_pos room]
  case drop =>
    intro len b notTab notLf notCr full
    rw [decodeRx_other (not_mem_accumulatorBytes.2 ⟨notTab, notLf, notCr⟩), if_neg (by omega)]

/-! ## What is refused -/

/-- A codec request decodes by the two fields of its header. -/
theorem decodeCodec_fields (h : CodecHeader) (ops : CodecOperands) :
    decodeCodec h ops = decodeCodec (codecHeader (codecLe h) (codecFsel h)) ops := by
  rw [codecHeader_fields]

/-- Every `rx_event` gives a next state (spec/42_accumulator.md R151 to R156). -/
theorem exec_decodeRx_next (len : Fin 12) (e : RxWord) (s : State) : ∃ t, exec (decodeRx len e) s = .next t := by
  obtain ⟨b, -, hd⟩ | ⟨-, hd⟩ | ⟨-, hd⟩ | ⟨-, hd⟩ | ⟨b, -, -, -, hd⟩ | ⟨b, -, -, -, hd⟩ := decodeRx_cases len e <;>
    exact ⟨_, by rw [hd]; rfl⟩

/-- A move of the host that is no codec request gives a next state. -/
theorem runMove_next {m : Move} (noRequest : ∀ h ops, m ≠ .codec h ops) (s : State) :
    ∃ t, runMove m s = .next t := by
  cases m with
  | offer e => exact exec_decodeRx_next s.frameLen e s
  | codec h ops => exact absurd rfl (noRequest h ops)
  | _ => exact ⟨_, rfl⟩

/-- A step that takes no codec request gives a next state. -/
theorem step_next {s : State} (noRequest : ∀ h ops, s.nextMove ≠ some (.codec h ops)) : ∃ t, step s = .next t := by
  cases hmv : takeMove s.held s.moves with
  | none => exact ⟨s, step_none hmv⟩
  | some p =>
    obtain ⟨m, rest⟩ := p
    rw [step_some hmv]
    exact runMove_next (fun h ops hm => noRequest h ops (hm ▸ nextMove_of_some hmv)) _

/-- Settles O44: the two reserved selects decode to rows whose meaning is the refusal, and `step_next` covers every
step without a request. -/
theorem reservedCodecRequestsAreRefused : Obligations.ReservedCodecRequestsAreRefused := by
  refine ⟨?fsel6, ?fsel7, fun s le => ⟨rfl, rfl⟩, fun s => ⟨⟨_, rfl⟩, _, rfl⟩, fun s noRequest => step_next noRequest⟩
  case fsel6 =>
    intro h ops hf
    rw [decodeCodec_fields, hf, decodeCodec_reservedFsel6]
  case fsel7 =>
    intro h ops hf
    rw [decodeCodec_fields, hf, decodeCodec_reservedFsel7]

end Sys2Proof.Machine
end

section
/-! PROOFS. The parse half of the codec (spec/40_codec_parse.md): the hex digits, the scan as a base-16 reading, and
`alignDown` as the greatest multiple of 4 at or below its operand. -/

namespace Sys2Proof.Machine

/-! ## `hexDigitValue` -/

/-- A byte less a character code at or below it, plus a small digit, as a digit: no borrow, so arithmetic on numbers. -/
theorem setWidth_sub_add (b c d : Byte) (h : c.toNat ≤ b.toNat) :
    (b - c + d).setWidth 4 = BitVec.ofNat 4 (b.toNat - c.toNat + d.toNat) := by
  have hc : c ≤ b := h
  apply BitVec.eq_of_toNat_eq
  rw [BitVec.toNat_setWidth, BitVec.toNat_add, BitVec.toNat_sub_of_le hc, BitVec.toNat_ofNat]
  omega

/-- `hexDigitValue` by character codes, row by row as R100 lists them. -/
theorem hexDigitValue_eq (b : Byte) : hexDigitValue b =
    if 0x30 ≤ b.toNat ∧ b.toNat ≤ 0x39 then some (BitVec.ofNat 4 (b.toNat - 0x30))
    else if 0x61 ≤ b.toNat ∧ b.toNat ≤ 0x66 then some (BitVec.ofNat 4 (b.toNat - 0x61 + 10))
    else if 0x41 ≤ b.toNat ∧ b.toNat ≤ 0x46 then some (BitVec.ofNat 4 (b.toNat - 0x41 + 10))
    else none := by
  refine ite_congr rfl (fun h => ?decimal) fun _ => ite_congr rfl (fun h => ?lower) fun _ =>
    ite_congr rfl (fun h => ?upper) fun _ => rfl
  case decimal => simpa using setWidth_sub_add b 0x30#8 0#8 h.1
  case lower => exact congrArg some (setWidth_sub_add b 0x61#8 10#8 h.1)
  case upper => exact congrArg some (setWidth_sub_add b 0x41#8 10#8 h.1)

/-- Settles O35: the three ranges of `hexDigitValue_eq` are disjoint, so each clause meets its own row. -/
theorem hexDigitValueIsThatOfAscii : Obligations.HexDigitValueIsThatOfAscii := by
  refine ⟨?decimal, ?lower, ?upper, ?other⟩
  case decimal =>
    intro b lo hi
    rw [hexDigitValue_eq, if_pos ⟨lo, hi⟩]
  case lower =>
    intro b lo hi
    rw [hexDigitValue_eq, if_neg (by omega), if_pos ⟨lo, hi⟩]
  case upper =>
    intro b lo hi
    rw [hexDigitValue_eq, if_neg (by omega), if_neg (by omega), if_pos ⟨lo, hi⟩]
  case other =>
    intro b notDecimal notLower notUpper
    rw [hexDigitValue_eq, if_neg notDecimal, if_neg notLower, if_neg notUpper]

/-! ## `parseHex32` -/

/-- Settles O36: `parseHex32_prefix` says which digits are pushed and how many, `foldl_pushDigit_ofNat` that pushing is
reading in base 16 modulo 2^32. -/
theorem parseIsBaseSixteenOfTheLongestPrefix : Obligations.ParseIsBaseSixteenOfTheLongestPrefix := by
  constructor
  · intro h ops hf
    rw [decodeCodec_fields, hf, decodeCodec_parseHex32]
  · intro text rest digits hd hlen hstop
    rw [parseHex32_prefix text rest digits hd hlen hstop]
    exact ⟨foldl_pushDigit_ofNat digits 0, rfl⟩

/-! ## `alignDown` -/

/-- A multiple of 4 is its own alignment. -/
theorem alignDown_eq_self {v : Word} (h : v.toNat % 4 = 0) : alignDown v = v := by
  apply BitVec.eq_of_toNat_eq
  rw [alignDown_toNat, h, Nat.sub_zero]

/-- No multiple of 4 at or below `v` is above its alignment (R110). -/
theorem le_alignDown {v : Word} {m : Nat} (hm : m % 4 = 0) (hle : m ≤ v.toNat) : m ≤ (alignDown v).toNat := by
  rw [alignDown_toNat]
  omega

/-- Settles O37: every clause follows from `alignDown_toNat`; idempotence, because a multiple of 4 is its own
alignment. -/
theorem alignDownIsTheMultipleOfFourBelow : Obligations.AlignDownIsTheMultipleOfFourBelow := by
  constructor
  · intro h ops hf
    rw [decodeCodec_fields, hf, decodeCodec_alignDown]
  · intro v
    have hval := alignDown_toNat v
    have hmul := alignDown_mod_four v
    exact ⟨hval, hmul, by omega, by omega, alignDown_eq_self hmul, fun m hm hle => le_alignDown hm hle⟩

end Sys2Proof.Machine
end

section
/-! PROOFS. The serializer half of the codec (spec/41_codec_serialize.md): the LUT by character codes, the bytes of a
word by arithmetic on its value, and the texts made of them. -/

namespace Sys2Proof.Machine

/-! ## The LUT -/

/-- A decimal nibble's character: the addition does not wrap (R130). -/
theorem hexLut_toNat_decimal {n : Nibble} (h : n.toNat ≤ 9) : (hexLut n).toNat = 0x30 + n.toNat := by
  have hn : n ≤ 9#4 := h
  rw [hexLut, if_pos hn, BitVec.toNat_add, BitVec.toNat_setWidth, BitVec.toNat_ofNat]
  omega

/-- A letter nibble's character: neither the subtraction nor the addition wraps (R130). -/
theorem hexLut_toNat_letter {n : Nibble} (h : 10 ≤ n.toNat) :
    (hexLut n).toNat = (if Config.hexUpper then 0x41 else 0x61) + (n.toNat - 10) := by
  have hn : ¬ n ≤ 9#4 := Nat.not_le.2 h
  have offset : (n.setWidth 8 - 10#8).toNat = n.toNat - 10 := by
    have wide : (n.setWidth 8).toNat = n.toNat := BitVec.toNat_setWidth_of_le (by decide)
    have ge : 10#8 ≤ n.setWidth 8 := by
      rw [BitVec.le_def, wide]
      exact h
    rw [BitVec.toNat_sub_of_le ge, wide, BitVec.toNat_ofNat]
  rw [hexLut, if_neg hn, BitVec.toNat_add, offset, apply_ite BitVec.toNat, BitVec.toNat_ofNat, BitVec.toNat_ofNat]
  split <;> omega

/-- Settles O39: one lemma per row of the formula. -/
theorem hexTableIsAscii : Obligations.HexTableIsAscii :=
  ⟨fun _ => hexLut_toNat_decimal, fun _ => hexLut_toNat_letter⟩

/-! ## The bytes of a word -/

/-- A slice of a word as a number: shift down, then cut off (R133). -/
theorem extractLsb'_byte_toNat (v : Word) (k : Nat) : (v.extractLsb' k 8).toNat = v.toNat / 2 ^ k % 256 := by
  rw [BitVec.extractLsb'_toNat, Nat.shiftRight_eq_div_pow]

/-- The values of a word's bytes, in the order of either endianness (R133, R134). -/
theorem wordBytes_map_toNat (v : Word) (le : Bool) : (wordBytes v le).map BitVec.toNat =
    if le then [v.toNat % 256, v.toNat / 2 ^ 8 % 256, v.toNat / 2 ^ 16 % 256, v.toNat / 2 ^ 24]
    else [v.toNat / 2 ^ 24, v.toNat / 2 ^ 16 % 256, v.toNat / 2 ^ 8 % 256, v.toNat % 256] := by
  have top : v.toNat / 2 ^ 24 < 256 := by omega
  cases le <;> simpa [wordBytes, extractLsb'_byte_toNat, -BitVec.extractLsb'_toNat] using top

/-- Bytes with the four values are the word's bytes: `BitVec.toNat` loses nothing. -/
theorem wordBytes_eq_of_toNat {v : Word} {b0 b1 b2 b3 : Byte} (h3 : b3.toNat = v.toNat / 2 ^ 24)
    (h2 : b2.toNat = v.toNat / 2 ^ 16 % 256) (h1 : b1.toNat = v.toNat / 2 ^ 8 % 256) (h0 : b0.toNat = v.toNat % 256)
    (le : Bool) : wordBytes v le = if le then [b0, b1, b2, b3] else [b3, b2, b1, b0] := by
  apply List.map_injective_iff.2 fun _ _ => BitVec.eq_of_toNat_eq
  rw [wordBytes_map_toNat, ← h3, ← h2, ← h1, ← h0]
  cases le <;> rfl

/-- Settles O40: the two orders are the two cases of `wordBytes_map_toNat`; the text is the raw bytes expanded by
definition (R138). -/
theorem rawBytesAreTheWordInByteOrder : Obligations.RawBytesAreTheWordInByteOrder := by
  constructor
  · intro h ops hf
    rw [decodeCodec_fields, hf, decodeCodec_word32ToRaw]
  · exact fun v => ⟨wordBytes_map_toNat v false, wordBytes_map_toNat v true, fun _ => rfl⟩

/-! ## The hex text -/

/-- The two nibbles of a byte as quotient and remainder by 16 (R132). -/
theorem byteToHex_eq (b : Byte) :
    byteToHex b = [hexLut (BitVec.ofNat 4 (b.toNat / 16)), hexLut (BitVec.ofNat 4 (b.toNat % 16))] := by
  have high : b.extractLsb' 4 4 = BitVec.ofNat 4 (b.toNat / 16) := by
    rw [BitVec.extractLsb', Nat.shiftRight_eq_div_pow]
  have low : b.extractLsb' 0 4 = BitVec.ofNat 4 (b.toNat % 16) := by
    apply BitVec.eq_of_toNat_eq
    simp [BitVec.extractLsb'_toNat]
  rw [byteToHex, high, low]

/-- Settles O41: `byteToHex_eq` for a byte; for a word, `wordBytes_eq_of_toNat` says which bytes are expanded, and in
which order. -/
theorem hexTextIsTheNibblesInOrder : Obligations.HexTextIsTheNibblesInOrder := by
  refine ⟨fun h ops hf => ?byteRequest, fun h ops hf => ?wordRequest, byteToHex_eq,
    fun v le b0 b1 b2 b3 h3 h2 h1 h0 => ⟨?text, word32ToHexBytes_length v le⟩⟩
  case byteRequest => rw [decodeCodec_fields, hf, decodeCodec_byteToHex]
  case wordRequest => rw [decodeCodec_fields, hf, decodeCodec_word32ToHex]
  case text =>
    rw [word32ToHexBytes, wordBytes_eq_of_toNat h3 h2 h1 h0]
    cases le <;> rfl

end Sys2Proof.Machine
end

section
/-! PROOFS. The intake step (spec/42_accumulator.md): the events that change nothing, the byte for a frame with room,
and the delimiters. -/

namespace Sys2Proof.Machine

/-- `V` = 0 read off the word: an idle poll, whatever `B` is (R151). -/
theorem decodeRx_of_not_present {e : RxWord} (h : rxPresent e = false) (len : Fin 12) :
    decodeRx len e = .accIdle (rxByte e) := by
  have packed : rxWord false (rxByte e) = e := h ▸ rxWord_fields e
  rw [← packed, decodeRx_idle, rxByte_rxWord]

/-- Settles O17: the words are rows of the map, and the meanings of the three rows answer the state they are given. -/
theorem idleTabAndDropChangeNothing : Obligations.IdleTabAndDropChangeNothing := by
  refine ⟨fun len e absent => decodeRx_of_not_present absent len, decodeRx_tab, ?drop,
    fun _ _ => rfl, fun _ => rfl, fun _ _ _ => rfl⟩
  case drop =>
    intro len b hb full
    rw [decodeRx_other hb, if_neg (by omega)]

/-- ACC_OTHER_APPEND on a frame with room: one slot and `FRAME_LEN` are written (R155). -/
theorem exec_accOtherAppend_of_lt (s : State) (b : Byte) (room : s.frameLen.val < 11) :
    exec (.accOtherAppend b) s =
      .next (s.setFrame (s.frame.set s.frameLen.val b) ⟨s.frameLen.val + 1, by omega⟩) :=
  congrArg Host.Outcome.next (appendByte_of_lt s b room)

/-- Settles O18: what a slot of the new frame holds is what a vector holds after one `set`. -/
theorem appendStoresTheByteAtFrameLen : Obligations.AppendStoresTheByteAtFrameLen := by
  constructor
  · intro len b notTab notLf notCr room
    rw [decodeRx_other (not_mem_accumulatorBytes.2 ⟨notTab, notLf, notCr⟩), if_pos (by omega)]
  · intro s b room
    refine ⟨_, _, exec_accOtherAppend_of_lt s b (by omega), rfl, Vector.getElem_set_self _, ?others⟩
    case others => exact fun i hi ne => Vector.getElem_set_ne _ hi ne.symm

/-- Settles O19: the command of `FRAME[0]` answers `dispatch s` (`exec_cmdByte`), and both delimiters answer that state
with the frame cleared (`delimiter_eq`). -/
theorem delimiterDispatchesThenClears : Obligations.DelimiterDispatchesThenClears := by
  refine ⟨decodeRx_cr, decodeRx_lf, fun s => ⟨dispatch s, exec_cmdByte s, ?cr, ?lf⟩⟩
  case cr => exact congrArg Host.Outcome.next (delimiter_eq s)
  case lf => exact congrArg Host.Outcome.next (delimiter_eq s)

end Sys2Proof.Machine
end

section
/-! PROOFS. The dispatch stage (spec/43_dispatch.md): the letters and their rows, the commands' effects, the bytes
without a row, and the feedback strings. -/

namespace Sys2Proof.Machine

/-! ## The letters -/

/-- Mask 0xDF takes away the case bit and nothing else, so code and case bit give the byte back (R76). -/
theorem eq_letter_caseBit (c : Byte) : c = letter (c &&& 0xDF#8) (caseBit c) := by
  revert c
  decide

/-- A lower-case letter is its upper-case code under mask 0xDF. -/
theorem lowerLetter_and_caseMask {upper : Byte} (hu : upper &&& 0xDF#8 = upper) :
    letter upper true &&& 0xDF#8 = upper := by
  rw [letter, if_pos rfl, BitVec.and_or_distrib_right, hu]
  exact BitVec.or_zero

/-- The bytes that match an upper-case code under mask 0xDF are its two letters (R76). -/
theorem letter_iff_caseMask {upper lower : Byte} (hu : upper &&& 0xDF#8 = upper) (hl : letter upper true = lower)
    (c : Byte) : c = lower ∨ c = upper ↔ c &&& 0xDF#8 = upper := by
  subst hl
  constructor
  · rintro (rfl | rfl)
    · exact lowerLetter_and_caseMask hu
    · exact hu
  · intro h
    have hc := eq_letter_caseBit c
    rw [h] at hc
    cases hb : caseBit c <;> rw [hb] at hc
    · exact .inr hc
    · exact .inl hc

/-- A row that both letters of an upper-case code have, each with its case bit, is the row of every byte that matches
the code. -/
theorem decodeCmd_of_caseMask {upper : Byte} {row : Bool → Instr}
    (rows : ∀ lower, decodeCmd (letter upper lower) = row lower) (c : Byte) (h : c &&& 0xDF#8 = upper) :
    decodeCmd c = row (caseBit c) := by
  rw [← rows, ← h, ← eq_letter_caseBit]

/-! ## The commands that write a register -/

/-- The argument, slot by slot (R73). -/
theorem argValue_eq_slots (s : State) : s.argValue = (parseHex32 [s.frame[1], s.frame[2], s.frame[3], s.frame[4],
    s.frame[5], s.frame[6], s.frame[7], s.frame[8], s.frame[9], s.frame[10]]).1 := by
  rw [State.argValue, argBytes_eq]

/-- Settles O23: the argument is `FRAME[1..10]` (`argValue_eq_slots`), and the command's action writes the register and
the tail of `TXQ`. -/
theorem setAddrStoresTheAlignedArgument : Obligations.SetAddrStoresTheAlignedArgument := by
  refine ⟨letter_iff_caseMask (by decide) (by decide), decodeCmd_of_caseMask (row := .setAddr) (by decide), ?effect⟩
  case effect =>
    rintro s lower a rfl
    rw [← argValue_eq_slots]
    exact exec_command (i := .setAddr lower) rfl s

/-- Settles O24: the argument is the same slots, and this action stores it rounded up. -/
theorem setLenStoresTheAlignedArgument : Obligations.SetLenStoresTheAlignedArgument := by
  refine ⟨letter_iff_caseMask (by decide) (by decide), decodeCmd_of_caseMask (row := .setLen) (by decide), ?effect⟩
  case effect =>
    rintro s lower n rfl
    rw [← argValue_eq_slots]
    exact exec_command (i := .setLen lower) rfl s

/-- Settles O25: each meaning is its action, one register and the tail of `TXQ`. -/
theorem modeCommandsWriteTransmitHex : Obligations.ModeCommandsWriteTransmitHex := by
  refine ⟨letter_iff_caseMask (by decide) (by decide), decodeCmd_of_caseMask (row := .modeBin) (by decide),
    letter_iff_caseMask (by decide) (by decide), decodeCmd_of_caseMask (row := .modeHex) (by decide),
    fun s lower => ⟨?bin, ?hex⟩⟩
  case bin => exact exec_command (i := .modeBin lower) rfl s
  case hex => exact exec_command (i := .modeHex lower) rfl s

/-- Settles O26: the two letters have a row each, and each meaning is its action. -/
theorem endianCommandsWriteTransmitLittleEndian : Obligations.EndianCommandsWriteTransmitLittleEndian := by
  refine ⟨rfl, rfl, fun s => ⟨?little, ?big⟩⟩
  case little => exact exec_command (i := .endianLittle) rfl s
  case big => exact exec_command (i := .endianBig) rfl s

/-- Settles O27: START's action reads no register. -/
theorem startSetsActive : Obligations.StartSetsActive := by
  refine ⟨letter_iff_caseMask (by decide) (by decide), decodeCmd_of_caseMask (row := .start) (by decide),
    fun s lower => ?effect⟩
  case effect => exact exec_command (i := .start lower) rfl s

/-! ## The commands that do nothing -/

/-- Settles O29: slot 0 of an empty frame is beyond its length, so it is zero by the invariant (R23). -/
theorem nopCommandsChangeNothing : Obligations.NopCommandsChangeNothing := by
  refine ⟨rfl, rfl, rfl, ?emptyFrame, fun s => ⟨?empty, ?lf, ?cr⟩⟩
  case emptyFrame =>
    intro s inv empty
    have hzero : s.frame[0] = 0x00#8 := inv.zeroBeyond 0 (by omega) (by omega)
    rw [hzero]
    rfl
  case empty => exact exec_command (i := .nopEmpty) rfl s
  case lf => exact exec_command (i := .nopLf) rfl s
  case cr => exact exec_command (i := .nopCr) rfl s

/-! ## The bytes without a row -/

/-- UNKNOWN is the row of exactly the unnamed bytes (R76). -/
theorem decodeCmd_eq_unknown_iff (c : Byte) : decodeCmd c = .unknown c ↔ c ∉ namedCommandBytes := by
  refine ⟨fun h => ?unnamed, decodeCmd_unknown c⟩
  case unnamed =>
    have hwf := decodeCmd_wellFormed c
    rw [h] at hwf
    simpa [Instr.wellFormed] using hwf

/-- Of the 256 bytes, as many are in a list without repetitions as the list is long. -/
theorem countP_byte_mem {bs : List Byte} (nodup : bs.Nodup) :
    (List.range 256).countP (fun n => decide (BitVec.ofNat 8 n ∈ bs)) = bs.length := by
  have perm : ((List.range 256).filter (fun n => decide (BitVec.ofNat 8 n ∈ bs))).Perm (bs.map BitVec.toNat) := by
    refine (List.perm_ext_iff_of_nodup (List.nodup_range.filter _)
      (nodup.map fun _ _ => BitVec.eq_of_toNat_eq)).2 fun n => ?_
    rw [List.mem_filter, List.mem_range, decide_eq_true_iff, List.mem_map]
    constructor
    · rintro ⟨hn, hmem⟩
      exact ⟨_, hmem, Nat.mod_eq_of_lt hn⟩
    · rintro ⟨b, hmem, rfl⟩
      exact ⟨b.isLt, by rwa [BitVec.ofNat_toNat, BitVec.setWidth_eq]⟩
  rw [List.countP_eq_length_filter, perm.length_eq, List.length_map]

/-- Of the 256 bytes, those outside a list without repetitions. -/
theorem countP_byte_not_mem {bs : List Byte} (nodup : bs.Nodup) :
    (List.range 256).countP (fun n => decide (BitVec.ofNat 8 n ∉ bs)) = 256 - bs.length := by
  have total := List.length_eq_countP_add_countP (fun n => decide (BitVec.ofNat 8 n ∈ bs)) (l := List.range 256)
  rw [countP_byte_mem nodup, List.length_range] at total
  simp only [decide_eq_true_eq] at total
  omega

/-- A byte without a row is stored, unless it is a tab: the two delimiters have rows (R75, R76). -/
theorem not_mem_accumulatorBytes_of_unnamed {c : Byte} (unnamed : c ∉ namedCommandBytes) (notTab : c ≠ 0x09#8) :
    c ∉ accumulatorBytes := by
  have ne_of_named {b : Byte} (named : b ∈ namedCommandBytes) : c ≠ b := fun h => unnamed (h ▸ named)
  exact not_mem_accumulatorBytes.2 ⟨notTab, ne_of_named (by decide), ne_of_named (by decide)⟩

/-- The reset state meets the invariants. -/
theorem resetState_inv : State.reset.Inv where
  zeroBeyond := by decide
  storedOther := by decide
  addrAligned := rfl
  lenAligned := rfl
  txqBounded := by decide
  heldEmpty := by decide
  oneHold := .inl rfl

/-- A block that is not held keeps the invariants when its frame takes a byte that is no tab and no delimiter (R155). -/
theorem inv_appendByte_of_free {s : State} {b : Byte} (inv : s.Inv) (free : s.held = false)
    (other : b ∉ accumulatorBytes) (room : s.frameLen.val < 11) : (s.appendByte b).Inv := by
  rw [appendByte_of_lt s b room]
  refine { inv with zeroBeyond := ?zero, storedOther := ?stored, heldEmpty := ?held }
  case zero =>
    intro i hi beyond
    have hne : s.frameLen.val + 1 ≤ i := beyond
    rw [State.setFrame_frame, Vector.getElem_set_ne _ _ (by omega)]
    exact inv.zeroBeyond i hi (by omega)
  case stored =>
    intro i hi within
    have hle : i < s.frameLen.val + 1 := within
    rw [State.setFrame_frame, Vector.getElem_set]
    split
    · exact other
    · exact inv.storedOther i hi (by omega)
  case held =>
    intro held
    rw [setFrame_held, free] at held
    cases held

/-- An unnamed byte that is no tab, offered right after reset with a delimiter behind it, is dispatched as UNKNOWN by
the next step (R77, R181). -/
theorem unknown_reachable {c : Byte} (unnamed : c ∉ namedCommandBytes) (notTab : c ≠ 0x09#8) : ∃ s : State,
    run 1 { State.reset with moves := [.offer (rxWord true c), .offer 0x10D#9] } = .next s ∧ s.Inv ∧
      s.nextCommand = some (.unknown c) := by
  have other := not_mem_accumulatorBytes_of_unnamed unnamed notTab
  refine ⟨(State.reset.setMoves [.offer 0x10D#9]).appendByte c, ?run, ?inv, ?command⟩
  case run => rw [run_succ (step_append rfl rfl other (Nat.zero_lt_succ 10))]; rfl
  case inv => exact inv_appendByte_of_free (resetState_inv.setMoves _) rfl other (by decide)
  case command =>
    rw [nextCommand_delimiter rfl rfl (.inr rfl), ← decodeCmd_unknown c unnamed]
    rfl

/-- Settles O30: the counts are 256 less the 17 named bytes (`countP_byte_not_mem`), and less the tab too;
`unknown_reachable` is the run. -/
theorem unknownCommandEmitsTheErrorLine : Obligations.UnknownCommandEmitsTheErrorLine := by
  refine ⟨decodeCmd_eq_unknown_iff, ?all, ?reachable, ?noTab, fun c => unknown_reachable, fun s c => ?effect⟩
  case all =>
    simp only [decodeCmd_eq_unknown_iff]
    exact countP_byte_not_mem (by decide)
  case reachable =>
    refine (List.countP_congr fun n hn => ?_).trans
      (countP_byte_not_mem (bs := 0x09#8 :: namedCommandBytes) (by decide))
    have tab : n = 0x09 ↔ BitVec.ofNat 8 n = 0x09#8 := by
      rw [← BitVec.toNat_inj, BitVec.toNat_ofNat, Nat.mod_eq_of_lt (List.mem_range.1 hn), BitVec.toNat_ofNat]
    simp only [decodeCmd_eq_unknown_iff, List.mem_cons, not_or, Ne, tab]
  case noTab => exact fun s inv => (not_mem_accumulatorBytes.1 inv.cmdByte_other).1
  case effect => exact exec_command (i := .unknown c) rfl s

/-! ## The feedback strings -/

/-- What a dispatch appends to `TXQ` is at most 34 bytes (R183). -/
theorem dispatch_txq (s : State) : ∃ out, (dispatch s).txq = s.txq ++ out ∧ out.length ≤ 34 := by
  obtain ⟨out, hlen, htxq, -⟩ | ⟨htxq, -⟩ := runCommand_output (decodeCmd s.cmdByte) s
  · exact ⟨out, htxq, hlen⟩
  · exact ⟨[], by rw [List.append_nil]; exact htxq, Nat.zero_le _⟩

/-- Settles O31: the strings and their lengths are closed facts; a stored value's text has 8 characters, whatever the
value is, and `dispatch_txq` bounds every dispatch. -/
theorem feedbackStringsAreThoseOfTheTable : Obligations.FeedbackStringsAreThoseOfTheTable := by
  refine ⟨rfl, rfl, rfl, rfl, rfl, rfl, rfl, rfl, rfl, rfl, rfl, rfl, rfl, rfl, rfl, rfl, fun v => ⟨?addr, ?len⟩,
    dispatch_txq⟩
  case addr => rw [List.length_append, List.length_append, word32ToHexBytes_length]; rfl
  case len => rw [List.length_append, List.length_append, word32ToHexBytes_length]; rfl

end Sys2Proof.Machine
end

section
/-! PROOFS. The block after reset (spec/10_state.md R20, spec/70_reset_and_hazards.md R230), and the invariants that
every step keeps. -/

namespace Sys2Proof.Machine

/-! ## Reset -/

/-- Settles O1: every field is a closed value; the 12 slots are those of a vector of zeros. -/
theorem resetLeavesTheResetColumn : Obligations.ResetLeavesTheResetColumn :=
  ⟨fun _ hi => Vector.getElem_replicate hi, rfl, rfl, rfl, rfl, rfl, rfl, rfl, rfl, rfl, rfl⟩

/-- Settles O2: `step_some` for the move, whose effect is `hostReset`. -/
theorem resetMoveRestoresEveryRegister : Obligations.ResetMoveRestoresEveryRegister := by
  intro s rest mv
  exact step_some mv

/-- Settles O3: `resetState_inv`, clause by clause. -/
theorem invariantsHoldAtReset : Obligations.InvariantsHoldAtReset := resetState_inv

/-! ## What keeps the invariants -/

/-- A reset gives a state that meets the invariants, whatever the host has received and has still to do. -/
theorem inv_hostReset (s : State) : (hostReset s).Inv := by
  obtain ⟨zeroBeyond, storedOther, addrAligned, lenAligned, txqBounded, heldEmpty, oneHold⟩ := resetState_inv
  exact ⟨zeroBeyond, storedOther, addrAligned, lenAligned, txqBounded, heldEmpty, oneHold⟩

/-- A command of a block that is not held, then the clear of the frame: the queue was empty, so it holds at most the
one reply, and only a statistics request, which emits nothing, sets `STATS_BUSY` (R153, R183). -/
theorem inv_runCommand_clear {s : State} (i : Instr) (inv : s.Inv) (free : s.held = false) :
    ((runCommand i s).setFrame emptyFrame 0).Inv := by
  obtain ⟨hq, hbusy⟩ := held_eq_false.1 free
  obtain ⟨addrAligned, lenAligned⟩ := runCommand_aligned i inv.addrAligned inv.lenAligned
  refine ⟨fun k hk _ => Vector.getElem_replicate hk, fun k _ within => absurd within (Nat.not_lt_zero k), addrAligned,
    lenAligned, ?txqBounded, fun _ => rfl, ?oneHold⟩
  case txqBounded =>
    obtain ⟨out, hlen, htxq, -⟩ | ⟨htxq, -⟩ := runCommand_output i s <;>
      rw [State.setFrame_txq, htxq, hq]
    · exact hlen
    · exact Nat.zero_le _
  case oneHold =>
    obtain ⟨out, -, -, hstats, -⟩ | ⟨htxq, -⟩ := runCommand_output i s
    · exact .inr (hstats.trans hbusy)
    · exact .inl (htxq.trans hq)

/-- A drain only shortens the queue, and a block that is held after it was held before (R216). -/
theorem inv_hostDrain {s : State} (k : Nat) (inv : s.Inv) : (hostDrain k s).Inv := by
  obtain ⟨-, heq⟩ | ⟨hq, heq⟩ := hostDrain_cases k s <;> rw [heq]
  · exact inv
  · refine { inv with txqBounded := ?bounded, heldEmpty := ?held, oneHold := ?one }
    case bounded => exact (List.drop_sublist _ _).length_le.trans inv.txqBounded
    case held => exact fun _ => inv.heldEmpty (held_of_txq hq)
    case one => exact inv.oneHold.imp_left fun h => absurd h hq

/-- Statistics done takes one reason to be held away (R217). -/
theorem inv_statsDone {s : State} (inv : s.Inv) : (s.setStatsBusy false).Inv := by
  refine { inv with heldEmpty := fun held => inv.heldEmpty ?_, oneHold := .inr rfl }
  obtain hq | hbusy := held_eq_true.1 held
  · exact held_of_txq hq
  · cases hbusy

/-- Settles O4, case by case of `step_cases`. -/
theorem everyStepKeepsTheInvariants : Obligations.EveryStepKeepsTheInvariants := by
  intro s s' inv h
  cases step_cases h with
  | stay => exact inv
  | quiet e rest => exact inv.setMoves rest
  | append b rest free ms other room => exact inv_appendByte_of_free (inv.setMoves rest) free other room
  | dispatch e rest free => exact inv_runCommand_clear _ (inv.setMoves rest) free
  | drain k rest => exact inv_hostDrain k (inv.setMoves rest)
  | statsDone rest => exact inv_statsDone (inv.setMoves rest)
  | readControl rest => exact (inv.setMoves rest).record _
  | codec hdr ops rest r => exact (inv.setMoves rest).record _
  | reset rest => exact inv_hostReset _

/-! ## What the invariants keep from dispatch -/

/-- The command that a step dispatches is the one whose byte stands in slot 0. -/
theorem encode_of_nextCommand {s : State} {i : Instr} (h : s.nextCommand = some i) : encode i = .cmd s.cmdByte := by
  rw [State.nextCommand] at h
  split at h
  · cases h
    exact encode_decodeCmd s.cmdByte
  · cases h

/-- A command whose byte is a tab or a delimiter is never dispatched (R77). -/
theorem nextCommand_ne_of_controlCode {s : State} (inv : s.Inv) {i : Instr} {c : Byte} (hi : encode i = .cmd c)
    (hc : c ∈ accumulatorBytes) : s.nextCommand ≠ some i := by
  intro h
  have hbyte : c = s.cmdByte := Encoded.cmd.inj (hi.symm.trans (encode_of_nextCommand h))
  exact inv.cmdByte_other (hbyte ▸ hc)

/-- Settles O22: 0x0A, 0x0D and 0x09 are the words of the three commands. -/
theorem controlCodesNeverReachDispatch : Obligations.ControlCodesNeverReachDispatch := by
  intro s inv
  exact ⟨nextCommand_ne_of_controlCode inv (c := 0x0A#8) rfl (by decide),
    nextCommand_ne_of_controlCode inv (c := 0x0D#8) rfl (by decide),
    nextCommand_ne_of_controlCode inv (c := 0x09#8) rfl (by decide)⟩

end Sys2Proof.Machine
end

section
/-! PROOFS. Decoding and encoding are inverse (spec/30_encoding.md R70 to R79). -/

namespace Sys2Proof.Machine

/-! ## Decoding a word -/

/-- Settles O7, row by row: an `rx_event` by `decodeRx_idle` and `decodeRx_other`, a letter in its two cases, a codec
request by the row of its `FSEL`. -/
theorem decodeOfEncodeIsIdentity : Obligations.DecodeOfEncodeIsIdentity := by
  intro len i wf app
  cases i with
  | accIdle b => exact decodeRx_idle len b
  | accTab => exact decodeRx_tab len
  | accDelimLf => exact decodeRx_lf len
  | accDelimCr => exact decodeRx_cr len
  | accOtherAppend b =>
    have other : b ∉ accumulatorBytes := by simpa [Instr.wellFormed] using wf
    have room : len.val < 11 := by simpa [Instr.applies] using app
    exact (decodeRx_other other).trans (if_pos room)
  | accOtherDrop b =>
    have other : b ∉ accumulatorBytes := by simpa [Instr.wellFormed] using wf
    have full : len.val = 11 := by simpa [Instr.applies] using app
    exact (decodeRx_other other).trans (if_neg (by omega))
  | setAddr lower | setLen lower | modeBin lower | modeHex lower | start lower | stats lower => cases lower <;> rfl
  | endianLittle | endianBig | nopEmpty | nopLf | nopCr => rfl
  | unknown c => exact decodeCmd_unknown c (by simpa [Instr.wellFormed] using wf)
  | parseHex32 le bs => exact decodeCodec_parseHex32 le _
  | alignDown le v => exact decodeCodec_alignDown le _
  | alignUp le v => exact decodeCodec_alignUp le _
  | byteToHex le b => exact decodeCodec_byteToHex le _
  | word32ToHex le v => exact decodeCodec_word32ToHex le _
  | word32ToRaw le v => exact decodeCodec_word32ToRaw le _
  | reservedFsel6 le => exact decodeCodec_reservedFsel6 le _
  | reservedFsel7 le => exact decodeCodec_reservedFsel7 le _

/-! ## What a word decodes to -/

/-- An `rx_event` decodes to an instruction that exists, applies, and has that word. -/
theorem decodeRx_sound (len : Fin 12) (e : RxWord) :
    (decodeRx len e).wellFormed = true ∧ (decodeRx len e).applies len = true ∧ encode (decodeRx len e) = .rx e := by
  obtain ⟨b, rfl, hd⟩ | ⟨rfl, hd⟩ | ⟨rfl, hd⟩ | ⟨rfl, hd⟩ | ⟨b, hb, rfl, hl, hd⟩ | ⟨b, hb, rfl, hl, hd⟩ :=
    decodeRx_cases len e <;> rw [hd]
  · exact ⟨rfl, rfl, rfl⟩
  · exact ⟨rfl, rfl, rfl⟩
  · exact ⟨rfl, rfl, rfl⟩
  · exact ⟨rfl, rfl, rfl⟩
  · exact ⟨by simpa [Instr.wellFormed] using hb, by simpa [Instr.applies] using hl, rfl⟩
  · exact ⟨by simpa [Instr.wellFormed] using hb, by simpa [Instr.applies] using hl, rfl⟩

/-- The row of a command byte applies at every frame length. -/
theorem applies_of_encode_cmd {i : Instr} {c : Byte} (word : encode i = .cmd c) (len : Fin 12) :
    i.applies len = true := by
  cases i with
  | accOtherAppend | accOtherDrop => cases word
  | _ => rfl

/-- A codec request decodes to an instruction that exists and applies, and whose word has the request's header and the
operand that its function uses (R74, R79). -/
theorem decodeCodec_sound (len : Fin 12) (h : CodecHeader) (ops : CodecOperands) :
    ((decodeCodec h ops).wellFormed = true ∧ (decodeCodec h ops).applies len = true) ∧
    ∃ ops', encode (decodeCodec h ops) = .codec h ops' ∧
      (codecFsel h = 0b000#3 → ops'.inBytes = ops.inBytes) ∧
      (codecFsel h = 0b001#3 ∨ codecFsel h = 0b010#3 ∨ codecFsel h = 0b100#3 ∨ codecFsel h = 0b101#3 →
        ops'.inValue = ops.inValue) ∧
      (codecFsel h = 0b011#3 → ops'.inByte = ops.inByte) := by
  rw [← codecHeader_fields h, codecFsel_codecHeader]
  obtain hf | hf | hf | hf | hf | hf | hf | hf := codecFsel_cases (codecFsel h) <;> rw [hf]
  · rw [decodeCodec_parseHex32]
    exact ⟨⟨rfl, rfl⟩, _, rfl, by simp⟩
  · rw [decodeCodec_alignDown]
    exact ⟨⟨rfl, rfl⟩, _, rfl, by simp⟩
  · rw [decodeCodec_alignUp]
    exact ⟨⟨rfl, rfl⟩, _, rfl, by simp⟩
  · rw [decodeCodec_byteToHex]
    exact ⟨⟨rfl, rfl⟩, _, rfl, by simp⟩
  · rw [decodeCodec_word32ToHex]
    exact ⟨⟨rfl, rfl⟩, _, rfl, by simp⟩
  · rw [decodeCodec_word32ToRaw]
    exact ⟨⟨rfl, rfl⟩, _, rfl, by simp⟩
  · rw [decodeCodec_reservedFsel6]
    exact ⟨⟨rfl, rfl⟩, _, rfl, by simp⟩
  · rw [decodeCodec_reservedFsel7]
    exact ⟨⟨rfl, rfl⟩, _, rfl, by simp⟩

/-- Settles O8: one lemma per format. -/
theorem encodeOfDecodeIsTheWord : Obligations.EncodeOfDecodeIsTheWord := by
  refine ⟨fun len w => ?sound, ?rx, fun len c => encode_decodeCmd c,
    fun len h ops => (decodeCodec_sound len h ops).2⟩
  case rx =>
    intro len e
    obtain ⟨-, -, word⟩ := decodeRx_sound len e
    exact word
  case sound =>
    cases w with
    | rx e =>
      obtain ⟨wf, app, -⟩ := decodeRx_sound len e
      exact ⟨wf, app⟩
    | cmd c => exact ⟨decodeCmd_wellFormed c, applies_of_encode_cmd (encode_decodeCmd c) len⟩
    | codec h ops => exact (decodeCodec_sound len h ops).1

/-! ## Single words -/

/-- Settles O10: the named bytes are closed facts, `decodeCmd_unknown` is the default row. -/
theorem commandByteMapIsTheTable : Obligations.CommandByteMapIsTheTable :=
  ⟨rfl, rfl, rfl, rfl, rfl, rfl, rfl, rfl, rfl, rfl, rfl, rfl, rfl, rfl, rfl, rfl, rfl, decodeCmd_unknown, rfl,
    by decide⟩

/-- Settles O11: closed facts. -/
theorem sampleWordsDecode : Obligations.SampleWordsDecode := ⟨rfl, rfl, rfl, rfl, rfl, rfl, rfl⟩

end Sys2Proof.Machine
end

section
/-! PROOFS. What one step does, move by move (spec/60_exceptions.md R215 to R221), and the registers and the feedback
along it. -/

namespace Sys2Proof.Machine

/-! ## The ControlState registers -/

/-- The registers after a step that dispatches nothing and is no reset. -/
theorem step_controlState_of_none {s s' : State} (h : step s = .next s') (noReset : s.nextMove ≠ some .reset)
    (none : s.nextCommand = none) : s'.controlState = s.controlState := by
  obtain ⟨-, hregs⟩ | ⟨hcmd, -⟩ := step_controlState h noReset
  · exact hregs
  · rw [none] at hcmd
    cases hcmd

/-- The registers after a step that dispatches a command are as the command leaves them. -/
theorem step_controlState_of_command {s s' : State} {i : Instr} (h : step s = .next s')
    (noReset : s.nextMove ≠ some .reset) (command : s.nextCommand = some i) :
    s'.controlState = (runCommand i s).controlState := by
  obtain ⟨hcmd, -⟩ | ⟨hcmd, hregs⟩ := step_controlState h noReset
  · rw [command] at hcmd
    cases hcmd
  · rw [command] at hcmd
    cases hcmd
    exact hregs

/-- Settles O6: each command's own action says which register it writes; a step without a command writes none. -/
theorem controlStateChangesOnlyAtItsCommands : Obligations.ControlStateChangesOnlyAtItsCommands := by
  intro s s' h noReset
  have written {i : Instr} (hi : s.nextCommand = some i) := step_controlState_of_command h noReset hi
  refine ⟨fun _ hi => written hi, fun _ hi => written hi, fun _ hi => written hi, fun _ hi => written hi,
    fun hi => written hi, fun hi => written hi, fun _ hi => written hi, fun others => ?others⟩
  case others =>
    cases hi : s.nextCommand with
    | none => exact step_controlState_of_none h noReset hi
    | some i =>
      rw [written hi]
      obtain rfl | rfl | rfl | ⟨lower, rfl⟩ | ⟨c, rfl⟩ := others i hi <;> rfl

/-! ## The decoded instruction -/

/-- A well-formed instruction whose word is an `rx_event` is what that word decodes to. -/
theorem decodeRx_of_encode {len : Fin 12} {i : Instr} {e : RxWord} (wf : i.wellFormed = true)
    (app : i.applies len = true) (word : encode i = .rx e) : decodeRx len e = i := by
  have roundTrip := decodeOfEncodeIsIdentity len i wf app
  rwa [word] at roundTrip

/-- A well-formed instruction whose word is a command byte is what that byte decodes to. -/
theorem decodeCmd_of_encode {i : Instr} {c : Byte} (wf : i.wellFormed = true) (word : encode i = .cmd c) :
    decodeCmd c = i := by
  have roundTrip := decodeOfEncodeIsIdentity 0 i wf (applies_of_encode_cmd word 0)
  rwa [word] at roundTrip

/-- Settles O12: the step is `runMove` of its move, and the word of an instruction decodes to it; a delimiter's step is
`step_delimiter`; a step without a move changes nothing, as an idle poll does. -/
theorem stepRunsTheDecodedInstruction : Obligations.StepRunsTheDecodedInstruction := by
  refine ⟨?offer, fun s h ops rest mv => step_some mv, ?delimiter, ?idle⟩
  case offer =>
    intro s i e rest wf app word free ms
    have decoded : decodeRx (s.setMoves rest).frameLen e = i := decodeRx_of_encode wf app word
    rw [step_some (takeMove_first_offer free ms), ← decoded]
    rfl
  case delimiter =>
    intro s i e rest wf word delim free ms
    have decoded : decodeCmd s.cmdByte = i := decodeCmd_of_encode wf word
    rw [step_delimiter free ms delim, ← decoded]
    exact ⟨_, exec_decodeCmd s.cmdByte (s.setMoves rest), rfl⟩
  case idle =>
    intro s free noMoves
    exact step_none (takeMove_none.2 (.inl noMoves))

/-! ## The kind of a step -/

/-- A step is refused exactly if its move is a codec request with a reserved select (R80). -/
theorem stepClass_eq_refused_iff (s : State) (f : BitVec 3) : s.stepClass = .refused f ↔
    (f = 0b110#3 ∨ f = 0b111#3) ∧ ∃ h ops, s.nextMove = some (.codec h ops) ∧ codecFsel h = f := by
  cases hmv : takeMove s.held s.moves with
  | none =>
    rw [State.stepClass, nextMove_of_none hmv, hmv]
    cases s.held <;> simp
  | some p =>
    obtain ⟨m, rest⟩ := p
    rw [State.stepClass, nextMove_of_some hmv, hmv]
    cases m with
    | codec h ops =>
      by_cases reserved : codecFsel h = 0b110#3 ∨ codecFsel h = 0b111#3
      · simp only [if_pos reserved, StepClass.refused.injEq]
        constructor
        · rintro rfl
          exact ⟨reserved, h, ops, rfl, rfl⟩
        · rintro ⟨-, h', ops', heq, rfl⟩
          cases heq
          rfl
      · simp only [if_neg reserved]
        constructor
        · exact fun hf => nomatch hf
        · rintro ⟨hf, h', ops', heq, rfl⟩
          cases heq
          exact absurd hf reserved
    | _ => simp

/-- A step is held exactly if the block is held and there is no move to take (R221). -/
theorem stepClass_eq_held_iff (s : State) :
    s.stepClass = .held ↔ s.held = true ∧ takeMove s.held s.moves = none := by
  cases hmv : takeMove s.held s.moves with
  | none =>
    rw [State.stepClass, hmv]
    cases s.held <;> simp
  | some p =>
    obtain ⟨m, rest⟩ := p
    rw [State.stepClass, hmv]
    cases m with
    | codec h ops => by_cases reserved : codecFsel h = 0b110#3 ∨ codecFsel h = 0b111#3 <;> simp [reserved]
    | _ => simp

/-- A step that takes a codec request answers a next state, unless its select is reserved: then it is refused. -/
theorem step_codec {s : State} {h : CodecHeader} {ops : CodecOperands} (hm : s.nextMove = some (.codec h ops)) :
    (¬(codecFsel h = 0b110#3 ∨ codecFsel h = 0b111#3) ∧ ∃ s', step s = .next s') ∨
    ((codecFsel h = 0b110#3 ∨ codecFsel h = 0b111#3) ∧ step s = .refused (.reservedCodecSelect (codecFsel h))) := by
  rw [State.nextMove, Option.map_eq_some_iff] at hm
  obtain ⟨⟨m, rest⟩, hmv, rfl⟩ := hm
  rw [step_some hmv]
  obtain ⟨not6, not7, r, hr⟩ | hr := exec_decodeCodec h ops (s.setMoves rest)
  · exact .inl ⟨not_or.2 ⟨not6, not7⟩, _, hr⟩
  · exact .inr hr

/-- A step of the kind refused is refused with the select that its kind names. -/
theorem step_of_stepClass_refused {s : State} {f : BitVec 3} (hc : s.stepClass = .refused f) :
    step s = .refused (.reservedCodecSelect f) := by
  obtain ⟨reserved, h, ops, hm, rfl⟩ := (stepClass_eq_refused_iff s f).1 hc
  obtain ⟨answered, -⟩ | ⟨-, hstep⟩ := step_codec hm
  · exact absurd reserved answered
  · exact hstep

/-- A step that is not of the kind refused gives a next state (R200, R221). -/
theorem step_next_of_not_refused {s : State} (hc : ∀ f, s.stepClass ≠ .refused f) : ∃ s', step s = .next s' := by
  by_cases request : ∃ h ops, s.nextMove = some (.codec h ops)
  · obtain ⟨h, ops, hm⟩ := request
    obtain ⟨-, answer⟩ | ⟨reserved, -⟩ := step_codec hm
    · exact answer
    · exact absurd ((stepClass_eq_refused_iff s _).2 ⟨reserved, h, ops, hm, rfl⟩) (hc _)
  · exact step_next fun h ops hm => request ⟨h, ops, hm⟩

/-- Settles O13: the two kinds that are not taken are characterised by the move, and the step follows from the kind. -/
theorem stepIsTakenHeldOrRefused : Obligations.StepIsTakenHeldOrRefused := by
  refine fun s => ⟨?taken, ?held, fun f => step_of_stepClass_refused, ?heldIff, stepClass_eq_refused_iff s⟩
  case taken =>
    intro taken
    refine step_next_of_not_refused fun f refused => ?_
    rw [taken] at refused
    cases refused
  case held =>
    intro held
    exact step_none ((stepClass_eq_held_iff s).1 held).2
  case heldIff =>
    rw [stepClass_eq_held_iff, takeMove_none]
    constructor
    · rintro ⟨held, noMoves | ⟨-, offers⟩⟩
      · exact ⟨held, by simp [noMoves]⟩
      · exact ⟨held, offers⟩
    · exact fun ⟨held, offers⟩ => ⟨held, .inr ⟨held, offers⟩⟩

/-! ## The moves of the host -/

/-- Settles O49: the two laws of `takeMove` and its `none` case; the offers in front of the move are passed over by
induction. -/
theorem heldBlockTakesTheFirstOtherMove : Obligations.HeldBlockTakesTheFirstOtherMove := by
  refine ⟨takeMove_not_held, fun offers m rest allOffers other => ?passed, fun held moves => takeMove_none⟩
  case passed =>
    induction offers with
    | nil => exact takeMove_of_not_offer true other rest
    | cons x xs ih =>
      obtain ⟨isOffer, othersOffers⟩ := List.forall_mem_cons.1 allOffers
      cases x with
      | offer e => rw [List.cons_append, takeMove_held_offer, ih othersOffers]; rfl
      | _ => cases isOffer

/-- Settles O45: a queue is what is taken off it, then what is left. -/
theorem drainTakesAPrefixOfTheQueue : Obligations.DrainTakesAPrefixOfTheQueue := by
  intro s k rest mv
  have hstep : step s = .next (hostDrain k (s.setMoves rest)) := step_some mv
  rw [hstep]
  obtain ⟨empty, heq⟩ | ⟨waits, heq⟩ := hostDrain_cases k (s.setMoves rest) <;> rw [heq]
  · exact ⟨fun waits => absurd empty waits, fun _ => rfl⟩
  · refine ⟨fun _ => ⟨s.txq.take (k + 1), s.txq.drop (k + 1), ?nonempty, (List.take_append_drop _ _).symm,
      List.length_take, rfl⟩, fun empty => absurd empty waits⟩
    case nonempty => simpa using waits

/-- Settles O46: each move's effect is one write. -/
theorem doneAndReadMovesAct : Obligations.DoneAndReadMovesAct := by
  refine ⟨fun s rest mv => ?done, fun s rest mv => ?read⟩
  case done => exact step_some mv
  case read => exact step_some mv

/-! ## The feedback stream -/

/-- A drain moves bytes from the queue to the host, and the stream is both (R216). -/
theorem hostDrain_feedback (k : Nat) (s : State) : (hostDrain k s).feedback = s.feedback := by
  obtain ⟨-, heq⟩ | ⟨-, heq⟩ := hostDrain_cases k s <;> rw [heq]
  simp [State.feedback, Event.acceptedBytes]

@[simp] theorem appendByte_feedback (s : State) (b : Byte) : (s.appendByte b).feedback = s.feedback := by
  obtain ⟨f, n, heq⟩ := appendByte_eq_setFrame s b
  rw [heq]
  rfl

/-- An event that brings no bytes from the queue leaves the stream alone. -/
theorem record_feedback (s : State) {e : Event} (noBytes : e.acceptedBytes = []) :
    (s.record e).feedback = s.feedback := by
  simp [State.feedback, noBytes]

/-- What a command appends to the stream: at most 34 bytes (R183). -/
theorem runCommand_feedback (i : Instr) (s : State) :
    ∃ out, (runCommand i s).feedback = s.feedback ++ out ∧ out.length ≤ 34 := by
  obtain ⟨out, hlen, htxq, -, hhist⟩ | ⟨htxq, -, hhist⟩ := runCommand_output i s
  · exact ⟨out, by simp [State.feedback, htxq, hhist], hlen⟩
  · exact ⟨[], by simp [State.feedback, htxq, hhist, Event.acceptedBytes], Nat.zero_le _⟩

/-- What a command leaves in the stream does not depend on the host's moves still to come. -/
theorem runCommand_setMoves_feedback (i : Instr) (s : State) (ms : List Move) :
    (runCommand i (s.setMoves ms)).feedback = (runCommand i s).feedback := by
  cases i <;> rfl

/-- The stream after a step that is no reset: as the dispatched command leaves it, and unchanged if the step dispatches
none. -/
theorem step_feedback {s s' : State} (h : step s = .next s') (noReset : s.nextMove ≠ some .reset) :
    (s.nextCommand = none ∧ s'.feedback = s.feedback) ∨
    (s.nextCommand = some (decodeCmd s.cmdByte) ∧ s'.feedback = (runCommand (decodeCmd s.cmdByte) s).feedback) := by
  cases step_cases h with
  | stay noMove => exact .inl ⟨nextCommand_stay noMove, rfl⟩
  | quiet e rest free ms notLf notCr => exact .inl ⟨nextCommand_quiet free ms notLf notCr, rfl⟩
  | append b rest free ms other => exact .inl ⟨nextCommand_other free ms other, appendByte_feedback _ b⟩
  | dispatch e rest free ms delim =>
    exact .inr ⟨nextCommand_delimiter free ms delim, runCommand_setMoves_feedback _ s rest⟩
  | drain k rest mv => exact .inl ⟨nextCommand_of_not_offer mv rfl, hostDrain_feedback k _⟩
  | statsDone rest mv => exact .inl ⟨nextCommand_of_not_offer mv rfl, rfl⟩
  | readControl rest mv => exact .inl ⟨nextCommand_of_not_offer mv rfl, record_feedback (s.setMoves rest) rfl⟩
  | codec hdr ops rest r mv => exact .inl ⟨nextCommand_of_not_offer mv rfl, record_feedback (s.setMoves rest) rfl⟩
  | reset rest mv => exact absurd (nextMove_of_some mv) noReset

/-- Settles O47: `step_feedback` says what the step does to the stream, `runCommand_feedback` what its command appends. -/
theorem feedbackStreamGrowsOnlyByReplies : Obligations.FeedbackStreamGrowsOnlyByReplies := by
  intro s s' h noReset
  obtain ⟨hcmd, hstream⟩ | ⟨hcmd, hstream⟩ := step_feedback h noReset <;> rw [hcmd]
  · exact ⟨fun _ => hstream, fun i t hi => nomatch hi⟩
  · refine ⟨fun hi => (nomatch hi), fun i t hi hexec => ?_⟩
    cases hi
    rw [exec_decodeCmd] at hexec
    cases hexec
    exact ⟨hstream, runCommand_feedback _ s⟩

end Sys2Proof.Machine
end

section
/-! PROOFS. The hold (spec/10_state.md R31): what a step of a held block keeps, how long a hold lasts, and which moves
lift it (spec/60_exceptions.md R206, R216, R217, spec/70_reset_and_hazards.md R236, R243). -/

namespace Sys2Proof.Machine

/-! ## A step of a held block -/

/-- The offers still to come. -/
def State.offers (s : State) : List Move := s.moves.filter Move.isOffer

/-- The frame, its length and the five registers are the same in both states. -/
def State.SameRegisters (s t : State) : Prop :=
  t.frame = s.frame ∧ t.frameLen = s.frameLen ∧ t.controlState = s.controlState

/-- What a step of a held block keeps, by the move that it takes. -/
structure HeldStep (s s' : State) : Prop where
  /-- No offer is consumed (R31, R215). -/
  offers : s'.offers = s.offers
  /-- Only a reset writes the frame or a register. -/
  registers : s.nextMove ≠ some .reset → s.SameRegisters s'
  /-- Only a drain or a reset changes the queue. -/
  txq : s.nextMove ≠ some .reset → (∀ k, s.nextMove ≠ some (.drain k)) → s'.txq = s.txq
  /-- Only statistics done or a reset changes `STATS_BUSY`. -/
  statsBusy : s.nextMove ≠ some .reset → s.nextMove ≠ some .statsDone → s'.statsBusy = s.statsBusy

theorem heldStep {s s' : State} (held : s.held = true) (h : step s = .next s') : HeldStep s s' := by
  cases step_cases h with
  | quiet e rest free | append b rest free | dispatch e rest free =>
    rw [held] at free
    cases free
  | stay => exact ⟨rfl, fun _ => ⟨rfl, rfl, rfl⟩, fun _ _ => rfl, fun _ _ => rfl⟩
  | drain k rest mv =>
    refine ⟨?offers, fun _ => ⟨hostDrain_frame k _, hostDrain_frameLen k _, hostDrain_controlState k _⟩,
      fun _ noDrain => absurd (nextMove_of_some mv) (noDrain k), fun _ _ => hostDrain_statsBusy k _⟩
    case offers =>
      rw [State.offers, hostDrain_moves]
      exact takeMove_offers mv rfl
  | statsDone rest mv =>
    exact ⟨takeMove_offers mv rfl, fun _ => ⟨rfl, rfl, rfl⟩, fun _ _ => rfl,
      fun _ noDone => absurd (nextMove_of_some mv) noDone⟩
  | readControl rest mv | codec hdr ops rest r mv =>
    exact ⟨takeMove_offers mv rfl, fun _ => ⟨rfl, rfl, rfl⟩, fun _ _ => rfl, fun _ _ => rfl⟩
  | reset rest mv =>
    have isReset := nextMove_of_some mv
    exact ⟨takeMove_offers mv rfl, fun noReset => absurd isReset noReset, fun noReset => absurd isReset noReset,
      fun noReset => absurd isReset noReset⟩

/-- Settles O14: two of the facts of `heldStep`. -/
theorem heldBlockConsumesNoOffer : Obligations.HeldBlockConsumesNoOffer := by
  intro s s' held h
  exact ⟨(heldStep held h).offers, (heldStep held h).registers⟩

/-! ## How long a hold lasts -/

/-- `t` waits as `s` does: the same frame, registers and offers, and no move that `s` did not have. -/
def State.WaitsAs (s t : State) : Prop := s.SameRegisters t ∧ t.offers = s.offers ∧ ∀ m ∈ t.moves, m ∈ s.moves

theorem State.WaitsAs.moves_subset {s t : State} {m : Move} (waits : s.WaitsAs t) (hm : m ∈ t.moves) : m ∈ s.moves :=
  waits.2.2 m hm

theorem waitsAs_refl (s : State) : s.WaitsAs s := ⟨⟨rfl, rfl, rfl⟩, rfl, fun _ hm => hm⟩

/-- One more step of a held block keeps it waiting, if it is no reset. -/
theorem waitsAs_step {s t t' : State} (waits : s.WaitsAs t) (held : t.held = true) (h : step t = .next t')
    (noReset : t.nextMove ≠ some .reset) : s.WaitsAs t' := by
  obtain ⟨⟨hframe, hlen, hregs⟩, hoffers, hmoves⟩ := waits
  obtain ⟨hframe', hlen', hregs'⟩ := (heldStep held h).registers noReset
  exact ⟨⟨hframe'.trans hframe, hlen'.trans hlen, hregs'.trans hregs⟩, (heldStep held h).offers.trans hoffers,
    fun m hm => hmoves m (step_moves_mem h m hm)⟩

/-- A block that waits for a drain waits on, with its queue as it is, until the host drains or resets. -/
theorem run_waits_for_drain (n : Nat) {s t : State} (waiting : s.txq ≠ [])
    (noLift : ∀ m ∈ s.moves, m ≠ .reset ∧ ∀ k, m ≠ .drain k) (hrun : run n s = .next t) :
    t.txq = s.txq ∧ s.WaitsAs t := by
  refine run_induction (P := fun u => u.txq = s.txq ∧ s.WaitsAs u) ?step n s t ⟨rfl, waitsAs_refl s⟩ hrun
  case step =>
    intro u u' ⟨hq, waits⟩ h
    have held : u.held = true := held_of_txq (hq ▸ waiting)
    have next {m : Move} (hm : u.nextMove = some m) : m ≠ .reset ∧ ∀ k, m ≠ .drain k :=
      noLift m (waits.moves_subset (nextMove_mem hm))
    have noReset : u.nextMove ≠ some .reset := fun hm => (next hm).1 rfl
    have kept := (heldStep held h).txq noReset fun k hm => (next hm).2 k rfl
    exact ⟨kept.trans hq, waitsAs_step waits held h noReset⟩

/-- A block that waits for statistics done waits on until the host signals it or resets. -/
theorem run_waits_for_done (n : Nat) {s t : State} (waiting : s.statsBusy = true)
    (noLift : ∀ m ∈ s.moves, m ≠ .reset ∧ m ≠ .statsDone) (hrun : run n s = .next t) :
    t.statsBusy = true ∧ s.WaitsAs t := by
  refine run_induction (P := fun u => u.statsBusy = true ∧ s.WaitsAs u) ?step n s t ⟨waiting, waitsAs_refl s⟩ hrun
  case step =>
    intro u u' ⟨hbusy, waits⟩ h
    have held : u.held = true := held_eq_true.2 (.inr hbusy)
    have next {m : Move} (hm : u.nextMove = some m) : m ≠ .reset ∧ m ≠ .statsDone :=
      noLift m (waits.moves_subset (nextMove_mem hm))
    have noReset : u.nextMove ≠ some .reset := fun hm => (next hm).1 rfl
    have kept := (heldStep held h).statsBusy noReset fun hm => (next hm).2 rfl
    exact ⟨kept.trans hbusy, waitsAs_step waits held h noReset⟩

/-- Settles O15: both holds, by induction over the run with "still waiting, as at its start". -/
theorem holdLastsUntilTheHostLiftsIt : Obligations.HoldLastsUntilTheHostLiftsIt := by
  constructor
  · intro n s t waiting noLift hrun
    obtain ⟨hq, ⟨hframe, hlen, hregs⟩, hoffers, -⟩ := run_waits_for_drain n waiting noLift hrun
    exact ⟨hq, hframe, hlen, hregs, hoffers⟩
  · intro n s t waiting noLift hrun
    obtain ⟨hbusy, ⟨hframe, hlen, hregs⟩, hoffers, -⟩ := run_waits_for_done n waiting noLift hrun
    exact ⟨hbusy, hframe, hlen, hregs, hoffers⟩

/-! ## What lifts a hold -/

/-- A drain of all that waits leaves an empty queue. -/
theorem hostDrain_txq_of_le {k : Nat} {s : State} (all : s.txq.length ≤ k + 1) : (hostDrain k s).txq = [] := by
  rw [hostDrain_txq, List.drop_eq_nil_of_le all]

/-- A first move that is no offer is the move of the step, held or not. -/
theorem step_first {s : State} {m : Move} {rest : List Move} (moves : s.moves = m :: rest)
    (other : m.isOffer = false) : step s = runMove m (s.setMoves rest) :=
  step_some (by rw [moves, takeMove_of_not_offer _ other])

/-- Settles O16: a drain of all that waits empties `TXQ` and keeps `STATS_BUSY`, statistics done clears `STATS_BUSY` and
keeps `TXQ`. -/
theorem drainAndDoneLiftTheHold : Obligations.DrainAndDoneLiftTheHold := by
  refine ⟨?drain, ?done, ?both⟩
  case drain =>
    intro s k rest waits idle all mv
    refine ⟨_, step_some mv, held_eq_false.2 ⟨hostDrain_txq_of_le all, ?_⟩, hostDrain_moves k _, hostDrain_frame k _,
      hostDrain_frameLen k _, hostDrain_controlState k _⟩
    exact (hostDrain_statsBusy k _).trans idle
  case done =>
    intro s rest empty busy mv
    exact ⟨_, step_some mv, held_eq_false.2 ⟨empty, rfl⟩, rfl, rfl, rfl, rfl⟩
  case both =>
    intro s k rest all moves
    have first : step s = .next (hostDrain k (s.setMoves (.statsDone :: rest))) := step_first moves rfl
    have second := step_first (hostDrain_moves k (s.setMoves (.statsDone :: rest))) rfl
    refine ⟨_, (run_succ first).trans ((run_succ second).trans (run_zero _)),
      held_eq_false.2 ⟨hostDrain_txq_of_le all, rfl⟩, rfl, hostDrain_frame k _, hostDrain_frameLen k _,
      hostDrain_controlState k _⟩

end Sys2Proof.Machine
end

section
/-! PROOFS. What a frame's bytes beyond the first do to a dispatch (spec/42_accumulator.md R159, spec/43_dispatch.md
R178, R185), and what the codec port answers: `alignUp`, and texts read back (spec/40_codec_parse.md,
spec/41_codec_serialize.md). -/

namespace Sys2Proof.Machine

/-! ## The default row at the other's lengths -/

/-- A full frame takes no byte. -/
theorem appendByte_of_full {s : State} (full : 11 ≤ s.frameLen.val) (b : Byte) : s.appendByte b = s := by
  rw [State.appendByte, dif_neg (by omega)]

/-- Settles O48: the append by `appendByte_of_full`; the drop changes nothing at any length. -/
theorem appendAndDropAtTheOthersLengths : Obligations.AppendAndDropAtTheOthersLengths := by
  refine fun s b => ⟨fun full => ?append, fun _ => rfl⟩
  case append => exact congrArg Host.Outcome.next (appendByte_of_full full.ge b)

/-! ## Dispatch and clear -/

/-- Writing to an empty frame what it holds changes nothing. -/
theorem setFrame_self {s : State} {f : Vector Byte 12} {n : Fin 12} (hf : s.frame = f) (hn : s.frameLen = n) :
    s.setFrame f n = s := by
  subst hf hn
  rfl

/-- Settles O20: slot 0 is 0x00, so the dispatch runs NOP_EMPTY, and the clear writes what stands there (R159). -/
theorem emptyLineChangesNothing : Obligations.EmptyLineChangesNothing := by
  intro s hframe hlen
  have command : decodeCmd s.cmdByte = .nopEmpty := by rw [State.cmdByte, hframe]; rfl
  have dispatched : dispatch s = s := by rw [dispatch, command]; rfl
  have unchanged : delimiter s = s := by rw [delimiter_eq, dispatched]; exact setFrame_self hframe hlen
  exact ⟨congrArg Host.Outcome.next unchanged, congrArg Host.Outcome.next unchanged⟩

/-- A command without an argument, then the clear, gives the same whatever frame it starts from (R185). -/
theorem runCommand_setFrame_clear {i : Instr} (noArgument : ∀ lower, i ≠ .setAddr lower ∧ i ≠ .setLen lower)
    (s : State) (f : Vector Byte 12) (n : Fin 12) :
    (runCommand i (s.setFrame f n)).clearFrame = (runCommand i s).clearFrame := by
  cases i with
  | setAddr lower => exact absurd rfl (noArgument lower).1
  | setLen lower => exact absurd rfl (noArgument lower).2
  | _ => rfl

/-- Settles O33: the command is that of slot 0, which both frames share. -/
theorem argumentsOfOtherCommandsHaveNoEffect : Obligations.ArgumentsOfOtherCommandsHaveNoEffect := by
  intro s f n sameLeading noArgument
  have same : delimiter (s.setFrame f n) = delimiter s := by
    have command : (s.setFrame f n).cmdByte = s.cmdByte := sameLeading
    rw [delimiter, dispatch, command]
    exact runCommand_setFrame_clear noArgument s f n
  exact ⟨congrArg Host.Outcome.next same, congrArg Host.Outcome.next same⟩

/-- Settles O28: the action is `report`, and `STATS_BUSY` is a reason to be held. -/
theorem statsRequestsAndHolds : Obligations.StatsRequestsAndHolds := by
  refine ⟨letter_iff_caseMask (by decide) (by decide), decodeCmd_of_caseMask (row := .stats) (by decide),
    fun s lower => ⟨s.report, exec_command (i := .stats lower) rfl s, rfl, held_eq_true.2 (.inr rfl)⟩⟩

/-! ## The codec port -/

/-- Settles O43: each meaning records its response; the count is bounded by the scan's fuel. -/
theorem codecRequestsAnswerAndChangeNothing : Obligations.CodecRequestsAnswerAndChangeNothing :=
  fun _ _ => ⟨fun bs => ⟨rfl, parseHex32_count_le bs.toList⟩, fun _ => rfl, fun _ => rfl, fun _ => rfl, fun _ => rfl,
    fun _ => rfl⟩

/-! ## `alignUp` -/

/-- A multiple of 4 is its own alignment, upwards too. -/
theorem alignUp_eq_self {v : Word} (h : v.toNat % 4 = 0) : alignUp v = v := by
  have hlt := v.isLt
  apply BitVec.eq_of_toNat_eq
  rw [alignUp_toNat v (by omega)]
  omega

/-- Off the multiples of 4 the two alignments differ: by 4 below the overflow band, and in it as 0 and 0xFFFFFFFC. -/
theorem alignUp_ne_alignDown {v : Word} (h : v.toNat % 4 ≠ 0) : alignUp v ≠ alignDown v := by
  intro heq
  have hval : (alignUp v).toNat = v.toNat - v.toNat % 4 := by rw [heq, alignDown_toNat]
  by_cases below : v.toNat ≤ 0xFFFFFFFC
  · rw [alignUp_toNat v below] at hval
    omega
  · rw [alignUp_wraps v (by omega), BitVec.toNat_ofNat] at hval
    omega

/-- Settles O38: below the overflow band every clause follows from `alignUp_toNat`, in it the value is 0. -/
theorem alignUpIsTheMultipleOfFourAbove : Obligations.AlignUpIsTheMultipleOfFourAbove := by
  refine ⟨fun h ops hf => ?request, fun v => ⟨alignUp_mod_four v, alignUp_eq_self (alignUp_mod_four v), ?same, ?least,
    alignUp_wraps v⟩⟩
  case request => rw [decodeCodec_fields, hf, decodeCodec_alignUp]
  case same =>
    refine ⟨fun heq => by_contra fun h => alignUp_ne_alignDown h heq, fun h => ?_⟩
    rw [alignUp_eq_self h, alignDown_eq_self h]
  case least =>
    intro below
    rw [alignUp_toNat v below]
    exact ⟨by omega, by omega, fun m hm hle => by omega⟩

/-! ## Texts read back -/

/-- Reading the two nibbles of each byte in base 16 is reading the bytes in base 256. -/
theorem foldl_nibbles (bs : List Byte) (a : Nat) :
    (bs.flatMap fun b => [b.extractLsb' 4 4, b.extractLsb' 0 4]).foldl (fun a (d : Nibble) => a * 16 + d.toNat) a =
      (bs.map BitVec.toNat).foldl (fun a b => a * 256 + b) a := by
  induction bs generalizing a with
  | nil => rfl
  | cons b bs ih =>
    have high : (b.extractLsb' 4 4).toNat = b.toNat / 16 := by
      rw [BitVec.extractLsb'_toNat, Nat.shiftRight_eq_div_pow]
      omega
    have low : (b.extractLsb' 0 4).toNat = b.toNat % 16 := by
      rw [BitVec.extractLsb'_toNat, Nat.shiftRight_zero]
    have step : (a * 16 + (b.extractLsb' 4 4).toNat) * 16 + (b.extractLsb' 0 4).toNat = a * 256 + b.toNat := by
      rw [high, low]
      omega
    simp only [List.flatMap_cons, List.foldl_append, List.foldl_cons, List.foldl_nil, List.map_cons, ih, step]

/-- The value read back from the text of a word: its bytes, in the order of the text, in base 256. -/
theorem parseHex32_word32ToHexBytes_eq (v : Word) (le : Bool) : parseHex32 (word32ToHexBytes v le) =
    (BitVec.ofNat 32 (((wordBytes v le).map BitVec.toNat).foldl (fun a b => a * 256 + b) 0), 8) := by
  rw [parseHex32_word32ToHexBytes, foldl_pushDigit_ofNat, wordNibbles, foldl_nibbles]

/-- Settles O42: the bytes by arithmetic on the word (`wordBytes_map_toNat`), put together again in base 256. -/
theorem parsingTheHexTextGivesTheWordBack : Obligations.ParsingTheHexTextGivesTheWordBack := by
  intro v
  have hlt := v.isLt
  rw [parseHex32_word32ToHexBytes_eq v false, parseHex32_word32ToHexBytes_eq v true, wordBytes_map_toNat v false,
    wordBytes_map_toNat v true]
  refine ⟨Prod.ext (BitVec.eq_of_toNat_eq ?big) rfl, ?little, rfl⟩
  case big =>
    rw [BitVec.toNat_ofNat]
    simp only [Bool.false_eq_true, if_false, List.foldl_cons, List.foldl_nil]
    omega
  case little =>
    rw [BitVec.toNat_ofNat]
    simp only [if_true, List.foldl_cons, List.foldl_nil]
    omega

end Sys2Proof.Machine
end

section
/-! PROOFS. The frame as the record of a line (spec/42_accumulator.md R161), and the whole path of a numeric command
(spec/95_test_vectors.md S1, S2). -/

namespace Sys2Proof.Machine

/-! ## A frame that has taken a list of bytes -/

/-- `s` with the frame that has taken the bytes `bs`: the first 11 of them, then zeroes. -/
def State.withBytes (s : State) (bs : List Byte) : State :=
  s.setFrame (Vector.ofFn fun i => (bs.take 11).getD i.val 0x00#8) ⟨min bs.length 11, by omega⟩

theorem withBytes_getElem (s : State) (bs : List Byte) (i : Nat) (hi : i < 12) :
    (s.withBytes bs).frame[i] = (bs.take 11).getD i 0x00#8 := Vector.getElem_ofFn hi

/-- An empty, zeroed frame has taken nothing. -/
theorem withBytes_nil {s : State} (hframe : s.frame = emptyFrame) (hlen : s.frameLen = 0) : s.withBytes [] = s := by
  refine setFrame_self (hframe.trans ?_) hlen
  ext i hi
  simp [emptyFrame]

/-- An append to a frame with room takes one byte more. -/
theorem appendByte_withBytes {s : State} {bs : List Byte} (room : bs.length < 11) (b : Byte) :
    (s.withBytes bs).appendByte b = s.withBytes (bs ++ [b]) := by
  have hlen : (s.withBytes bs).frameLen.val = bs.length := Nat.min_eq_left room.le
  have hlen' : (bs ++ [b]).length = bs.length + 1 := List.length_append
  rw [appendByte_of_lt _ _ (by omega)]
  refine congrArg₂ s.setFrame (Vector.ext fun i hi => ?_) (Fin.ext ?_)
  · rw [Vector.getElem_set, withBytes_getElem, Vector.getElem_ofFn, List.take_of_length_le room.le,
      List.take_of_length_le (by omega), hlen]
    obtain before | rfl | after := Nat.lt_trichotomy i bs.length
    · rw [if_neg before.ne', List.getD_append _ _ _ _ before]
    · simp
    · rw [if_neg after.ne, List.getD_eq_default _ _ after.le, List.getD_eq_default _ _ (hlen' ▸ after)]
  · show (s.withBytes bs).frameLen.val + 1 = min (bs ++ [b]).length 11
    omega

/-- A full frame has no room for more. -/
theorem withBytes_append_of_full {s : State} {bs : List Byte} (full : 11 ≤ bs.length) (more : List Byte) :
    s.withBytes (bs ++ more) = s.withBytes bs := by
  have hlen : (bs ++ more).length = bs.length + more.length := List.length_append
  refine congrArg₂ s.setFrame ?_ (Fin.ext ?_)
  · rw [List.take_append_of_le_length full]
  · show min (bs ++ more).length 11 = min bs.length 11
    omega

/-! ## Offers -/

/-- The bytes that a poll answer brings for the frame: one, unless there is none or it is a tab (R151, R152). -/
def storedBytes (e : RxWord) : List Byte := if rxPresent e && rxByte e != 0x09#8 then [rxByte e] else []

theorem storedBytes_of_other {b : Byte} (other : b ∉ accumulatorBytes) : storedBytes (rxWord true b) = [b] := by
  simp [storedBytes, (not_mem_accumulatorBytes.1 other).1]

/-- The step of a block that is not held and is offered anything but a delimiter: the frame takes the byte, if there is
one and there is room. -/
theorem step_offer_withBytes {s : State} {bs : List Byte} {e : RxWord} {rest : List Move} (free : s.held = false)
    (moves : s.moves = .offer e :: rest) (noDelim : e ≠ 0x10A#9 ∧ e ≠ 0x10D#9) :
    step (s.withBytes bs) = .next ((s.setMoves rest).withBytes (bs ++ storedBytes e)) := by
  have hstep : step (s.withBytes bs) =
      exec (decodeRx (s.withBytes bs).frameLen e) ((s.setMoves rest).withBytes bs) :=
    step_some (takeMove_first_offer (s := s.withBytes bs) free moves)
  have hlen : (s.withBytes bs).frameLen.val = min bs.length 11 := rfl
  rw [hstep]
  obtain ⟨b, rfl, hd⟩ | ⟨rfl, hd⟩ | ⟨he, -⟩ | ⟨he, -⟩ | ⟨b, other, rfl, room, hd⟩ | ⟨b, other, rfl, full, hd⟩ :=
    decodeRx_cases (s.withBytes bs).frameLen e
  · simp only [hd, storedBytes, rxPresent_rxWord, Bool.false_and, Bool.false_eq_true, if_false, List.append_nil]
    rfl
  · rw [hd, show storedBytes 0x109#9 = [] from rfl, List.append_nil]
    rfl
  · exact absurd he noDelim.1
  · exact absurd he noDelim.2
  · rw [hd, storedBytes_of_other other, ← appendByte_withBytes (by omega)]
    rfl
  · rw [hd, storedBytes_of_other other, withBytes_append_of_full (by omega)]
    rfl

/-- The steps that take a list of poll answers without a delimiter. -/
theorem run_offers_withBytes {s : State} {events : List RxWord} {rest : List Move} (bs : List Byte)
    (free : s.held = false) (moves : s.moves = events.map .offer ++ rest)
    (noDelim : ∀ e ∈ events, e ≠ 0x10A#9 ∧ e ≠ 0x10D#9) :
    run events.length (s.withBytes bs) = .next ((s.setMoves rest).withBytes (bs ++ events.flatMap storedBytes)) := by
  induction events generalizing s bs with
  | nil =>
    have noMoves : s.moves = rest := moves
    subst noMoves
    rw [List.flatMap_nil, List.append_nil]
    rfl
  | cons e events ih =>
    obtain ⟨first, others⟩ := List.forall_mem_cons.1 noDelim
    have next : s.moves = .offer e :: (events.map .offer ++ rest) := moves
    rw [List.length_cons, run_succ (step_offer_withBytes free next first),
      ih (s := s.setMoves (events.map Move.offer ++ rest)) _ free rfl others, List.flatMap_cons, List.append_assoc]
    rfl

/-- The bytes for the frame among a list of poll answers. -/
theorem flatMap_storedBytes (events : List RxWord) : events.flatMap storedBytes =
    (events.filter fun e => rxPresent e && rxByte e != 0x09#8).map rxByte := by
  induction events with
  | nil => rfl
  | cons e events ih =>
    rw [List.flatMap_cons, List.filter_cons, ih, storedBytes]
    split <;> rfl

/-- Settles O21: the frame has taken the bytes that are no tab, so it holds the first 11 of them. -/
theorem frameIsTheFirstElevenNonTabBytes : Obligations.FrameIsTheFirstElevenNonTabBytes := by
  rintro s events kept rest free hframe hlen noDelim rfl moves
  have hrun := run_offers_withBytes [] free moves noDelim
  rw [withBytes_nil hframe hlen, List.nil_append, flatMap_storedBytes] at hrun
  refine ⟨_, _, hrun, ?length, fun i hi => withBytes_getElem s _ i hi⟩
  case length => exact (Nat.min_comm _ _).trans List.length_take.symm

/-! ## A command line -/

/-- A line of stored bytes and a delimiter, from an empty frame: the command of the first byte runs on the frame that
has taken the line, and the frame is cleared (R161, R170). -/
theorem run_commandLine {s : State} {line : List Byte} {delimiter : Byte} {rest : List Move} (free : s.held = false)
    (hframe : s.frame = emptyFrame) (hlen : s.frameLen = 0) (others : ∀ b ∈ line, b ∉ accumulatorBytes)
    (delim : delimiter = 0x0A#8 ∨ delimiter = 0x0D#8)
    (moves : s.moves = (line ++ [delimiter]).map (fun b => .offer (rxWord true b)) ++ rest) :
    run (line.length + 1) s = .next ((runCommand (decodeCmd (s.withBytes line).cmdByte)
      ((s.setMoves rest).withBytes line)).setFrame emptyFrame 0) := by
  have stored : (line.map (rxWord true)).flatMap storedBytes = line := by
    rw [List.flatMap_map]
    exact (List.flatMap_congr fun b hb => storedBytes_of_other (others b hb)).trans (by simp)
  have noDelim : ∀ e ∈ line.map (rxWord true), e ≠ 0x10A#9 ∧ e ≠ 0x10D#9 := by
    intro e he
    obtain ⟨b, hb, rfl⟩ := List.mem_map.1 he
    obtain ⟨-, -, notLf, notCr⟩ := rxWord_true_not_named b (others b hb)
    exact ⟨notLf, notCr⟩
  have moves' : s.moves = (line.map (rxWord true)).map .offer ++ (.offer (rxWord true delimiter) :: rest) := by
    simp [moves]
  have hrun := run_offers_withBytes [] free moves' noDelim
  rw [withBytes_nil hframe hlen, List.nil_append, stored, List.length_map] at hrun
  have event : rxWord true delimiter = 0x10A#9 ∨ rxWord true delimiter = 0x10D#9 :=
    delim.imp (congrArg (rxWord true)) (congrArg (rxWord true))
  exact (run_add 1 hrun).trans (run_succ (n := 0) (step_delimiter (rest := rest) free rfl event))

/-- The argument bytes of a frame that has taken a letter and a text: the text, then zeroes. -/
theorem argBytes_withBytes (s : State) (letter : Byte) {text : List Byte} (hlen : text.length ≤ 10) :
    (s.withBytes (letter :: text)).argBytes = text ++ List.replicate (10 - text.length) 0x00#8 := by
  apply List.ext_getElem
  · simp [hlen]
  · intro i hi hi'
    rw [argBytes_getElem, withBytes_getElem, List.take_of_length_le (Nat.succ_le_succ hlen), List.getD_cons_succ]
    obtain within | beyond := Nat.lt_or_ge i text.length
    · rw [List.getD_eq_getElem _ _ within, List.getElem_append_left within]
    · rw [List.getD_eq_default _ _ beyond, List.getElem_append_right beyond, List.getElem_replicate]

/-- The argument of a line whose text is all hex digits: their base-16 value (R73, R105). -/
theorem argValue_withBytes (s : State) (letter : Byte) {text : List Byte} {digits : List Nibble}
    (hd : text.map hexDigitValue = digits.map some) (hlen : text.length ≤ 10) :
    (s.withBytes (letter :: text)).argValue =
      BitVec.ofNat 32 (digits.foldl (fun a d => a * 16 + d.toNat) 0) := by
  rw [State.argValue, argBytes_withBytes s letter hlen, parseHex32_prefix text _ digits hd hlen ?stops]
  · exact foldl_pushDigit_ofNat digits 0
  case stops =>
    obtain full | room := Nat.eq_or_lt_of_le hlen
    · exact .inl full
    · refine .inr (.inr ⟨0x00#8, List.replicate (10 - text.length - 1) 0x00#8, ?_, by decide⟩)
      rw [← List.replicate_succ, Nat.sub_add_cancel (by omega)]

/-- A byte with a digit value is no tab and no delimiter. -/
theorem not_mem_accumulatorBytes_of_digit {text : List Byte} {digits : List Nibble}
    (hd : text.map hexDigitValue = digits.map some) : ∀ b ∈ text, b ∉ accumulatorBytes := by
  have noValue : ∀ b ∈ accumulatorBytes, hexDigitValue b = none := by decide
  intro b hb control
  have hmem : hexDigitValue b ∈ digits.map some := hd ▸ List.mem_map_of_mem hb
  rw [noValue b control] at hmem
  simp at hmem

/-- A reply on a block with an empty queue and an empty frame, whatever line the frame took in between, then the
clear: the reply is the queue. -/
theorem emit_clear_withBytes {s : State} (hq : s.txq = []) (hframe : s.frame = emptyFrame) (hlen : s.frameLen = 0)
    (line out : List Byte) : ((s.withBytes line).emit out).setFrame emptyFrame 0 = s.setTxq out := by
  have cleared : ((s.withBytes line).emit out).setFrame emptyFrame 0 = s.emit out :=
    setFrame_self (s := s.emit out) hframe hlen
  rw [cleared, State.emit, hq, List.nil_append]

/-- Settles O34: `run_commandLine` for the steps, `argValue_withBytes` for the value that the command reads,
`emit_clear_withBytes` for the reply and the frame. -/
theorem numericLineStoresItsValue : Obligations.NumericLineStoresItsValue := by
  rintro s letter delimiter text digits v rest free hframe hlen hd short rfl delim moves
  have hq : s.txq = [] := (held_eq_false.1 free).1
  have hvalue := argValue_withBytes (s.setMoves rest) letter hd short
  have hrun (stored : letter ∉ accumulatorBytes) := run_commandLine free hframe hlen
    (List.forall_mem_cons.2 ⟨stored, not_mem_accumulatorBytes_of_digit hd⟩) delim moves
  constructor
  · intro isAddr
    have stored : letter ∉ accumulatorBytes := by obtain rfl | rfl := isAddr <;> decide
    have row : runCommand (decodeCmd letter) = setAddr := by obtain rfl | rfl := isAddr <;> rfl
    refine (hrun stored).trans (congrArg Host.Outcome.next ?_)
    show (runCommand (decodeCmd letter) _).setFrame emptyFrame 0 = _
    rw [row, setAddr, hvalue]
    exact emit_clear_withBytes (s := (s.setMoves rest).setReadoutAddress _) hq hframe hlen (letter :: text) _
  · intro isLen
    have stored : letter ∉ accumulatorBytes := by obtain rfl | rfl := isLen <;> decide
    have row : runCommand (decodeCmd letter) = setLen := by obtain rfl | rfl := isLen <;> rfl
    refine (hrun stored).trans (congrArg Host.Outcome.next ?_)
    show (runCommand (decodeCmd letter) _).setFrame emptyFrame 0 = _
    rw [row, setLen, hvalue]
    exact emit_clear_withBytes (s := (s.setMoves rest).setReadoutLen _) hq hframe hlen (letter :: text) _

end Sys2Proof.Machine
end
